-- ==== Sys2Proof/Word.lean ====
section
/-!
DEFINITION. The plain types of the QDPI block's values: event words, channels, phases, level pairs, directions,
and the numeric type NUM (00_scope.md R11 to R13, R16; 10_state.md R21, R34; 30_encoding.md R70).
-/

namespace Sys2Proof

/-- One input event: an 8-bit event word (30_encoding.md R70). -/
abbrev EventWord := BitVec 8

/-- One byte of a serialized sample record (95_test_vectors.md V-L1-8). -/
abbrev Byte := BitVec 8

/-- `uint64`, the type of WAKE_SEC and WAKE_NSEC (10_state.md R25). -/
abbrev Word64 := BitVec 64

/-- An encoder channel (30_encoding.md R72). -/
inductive Channel where
  | A
  | B
  deriving DecidableEq, Repr, Inhabited

/-- An (A, B) level pair: `(levelA, levelB)`, true for high (00_scope.md R16). -/
abbrev Levels := Bool × Bool

/-- The decoder's phases (10_state.md R21). -/
inductive Phase where
  | S1
  | S2
  | S3
  | S4
  deriving DecidableEq, Repr, Inhabited

/-- The actuator's direction (42_controller.md R146). -/
inductive Dir where
  | forward
  | reverse
  deriving DecidableEq, Repr, Inhabited

/-- The numeric format NUM_FMT of a build (00_scope.md R8, R13). -/
inductive NumFmt where
  | binary32
  | binary64
  deriving DecidableEq, Repr, Inhabited

/-- A value of the numeric type NUM, as the bit pattern a register or a port holds: 32 bits for BINARY32, 64 bits
for BINARY64 (00_scope.md R13, 10_state.md R34). -/
inductive NumBits where
  | b32 (bits : BitVec 32)
  | b64 (bits : BitVec 64)
  deriving DecidableEq, Repr, Inhabited

/-- What a NUM pattern stands for. A finite value is sign and magnitude, the magnitude counted in units of the
format's least positive value (2^-149 for BINARY32, 2^-1074 for BINARY64), so that every finite value of a format
is one exact natural number and a sign; both zeros are kept apart. -/
inductive NumVal where
  | nan
  | inf (neg : Bool)
  | fin (neg : Bool) (mag : Nat)
  deriving DecidableEq, Repr, Inhabited

/-- Byte order of a serialized sample record, TELEM_ENDIAN (00_scope.md R8). -/
inductive Endian where
  | little
  | big
  deriving DecidableEq, Repr, Inhabited

/-- The agents that take steps (00_scope.md R6). -/
inductive Agent where
  | DEC
  | CTL
  | ENV
  deriving DecidableEq, Repr, Inhabited

end Sys2Proof
end

