-- ==== Sys2Proof/Machine/Num.lean ====
section
/-!
DEFINITION. The arithmetic of NUM (00_scope.md R13, decision D12): IEEE 754 binary32 and binary64, each operator
rounded once, to nearest with ties to even, and never fused. Every operator is computed exactly over the integers
(a finite value is a count of the format's least positive value) and then rounded by the one function `roundMag`.
Where R13 speaks of real numbers only (the sign of a zero result, infinities, NaN), the cases are those of IEEE 754,
which D12 names (log entry 8).
-/

namespace Sys2Proof.Machine

/-- Significand bits of a format, the hidden one included. -/
def fmtPrec : NumFmt → Nat
  | .binary32 => 24
  | .binary64 => 53

/-- Exponent bits of a format. -/
def fmtExpBits : NumFmt → Nat
  | .binary32 => 8
  | .binary64 => 11

/-- The format's least positive value is 2 to the minus this. -/
def fmtUnitExp : NumFmt → Nat
  | .binary32 => 149
  | .binary64 => 1074

/-- Width of a format's patterns in bits (10_state.md R34). -/
def fmtWidth : NumFmt → Nat
  | .binary32 => 32
  | .binary64 => 64

/-- A magnitude of more than this many bits, in units of the least positive value, is beyond the largest finite
value. -/
def fmtTopExp : NumFmt → Nat
  | .binary32 => 277
  | .binary64 => 2098

/-- The format of a NUM pattern. -/
def numFmtOf : NumBits → NumFmt
  | .b32 _ => .binary32
  | .b64 _ => .binary64

/-- Number of bits of a natural number; 0 for 0. -/
def bitLength (n : Nat) : Nat := if n = 0 then 0 else Nat.log2 n + 1

/-- How many low bits of a magnitude of integer part `q` a format drops. -/
def dropBits (f : NumFmt) (q : Nat) : Nat := bitLength q - fmtPrec f

/-- `num / den` rounded to an integer, to nearest with ties to even. -/
def roundDiv (num den : Nat) : Nat :=
  if 2 * (num % den) < den then num / den
  else if den < 2 * (num % den) then num / den + 1
  else if num / den % 2 = 0 then num / den
  else num / den + 1

/-- The magnitude `num / den`, in units of the format's least positive value, rounded to the format's precision, to
nearest with ties to even, the exponent not bounded above (00_scope.md R13). -/
def roundMag (f : NumFmt) (num den : Nat) : Nat :=
  roundDiv num (den * 2 ^ dropBits f (num / den)) * 2 ^ dropBits f (num / den)

/-- `fl(x)` for the exact real x of sign `neg` and magnitude `num / den` units (00_scope.md R13); a rounded
magnitude beyond the largest finite value is an infinity (IEEE 754; log entry 8). -/
def flVal (f : NumFmt) (neg : Bool) (num den : Nat) : NumVal :=
  if bitLength (roundMag f num den) ≤ fmtTopExp f then .fin neg (roundMag f num den) else .inf neg

/-- What the pattern with the low `fmtWidth f` bits of `n` stands for. -/
def valOfBits (f : NumFmt) (n : Nat) : NumVal :=
  let neg := n.testBit (fmtWidth f - 1)
  let frac := n % 2 ^ (fmtPrec f - 1)
  let exp := n / 2 ^ (fmtPrec f - 1) % 2 ^ fmtExpBits f
  if exp = 2 ^ fmtExpBits f - 1 then (if frac = 0 then .inf neg else .nan)
  else if exp = 0 then .fin neg frac
  else .fin neg ((2 ^ (fmtPrec f - 1) + frac) * 2 ^ (exp - 1))

/-- What a NUM pattern stands for. -/
def numVal : NumBits → NumVal
  | .b32 w => valOfBits .binary32 w.toNat
  | .b64 w => valOfBits .binary64 w.toNat

/-- The pattern bits below the sign of a magnitude of the format: biased exponent and fraction. -/
def magBits (f : NumFmt) (mag : Nat) : Nat :=
  dropBits f mag * 2 ^ (fmtPrec f - 1) + mag / 2 ^ dropBits f mag

/-- The pattern of a value of the format, as a natural number. A NaN has the pattern of IEEE 754's quiet NaN with no
payload; no operation of the block stores or emits one (42_controller.md R150; log entry 9). -/
def bitsOfVal (f : NumFmt) : NumVal → Nat
  | .nan => (2 ^ fmtExpBits f - 1) * 2 ^ (fmtPrec f - 1) + 2 ^ (fmtPrec f - 2)
  | .inf neg => (if neg then 2 ^ (fmtWidth f - 1) else 0) + (2 ^ fmtExpBits f - 1) * 2 ^ (fmtPrec f - 1)
  | .fin neg mag => (if neg then 2 ^ (fmtWidth f - 1) else 0) + magBits f mag

/-- The NUM pattern of a value of the format. -/
def numOf (f : NumFmt) (v : NumVal) : NumBits :=
  match f with
  | .binary32 => .b32 (BitVec.ofNat 32 (bitsOfVal f v))
  | .binary64 => .b64 (BitVec.ofNat 64 (bitsOfVal f v))

/-- The value is a NaN. -/
def isNaN : NumVal → Bool
  | .nan => true
  | .inf _ => false
  | .fin _ _ => false

/-- The value is finite. -/
def isFinite : NumVal → Bool
  | .nan => false
  | .inf _ => false
  | .fin _ _ => true

/-- The signed count of units of a finite value. -/
def signedMag (neg : Bool) (mag : Nat) : Int := if neg then -(mag : Int) else (mag : Int)

/-- The value with its sign flipped. -/
def negVal : NumVal → NumVal
  | .nan => .nan
  | .inf s => .inf (!s)
  | .fin s m => .fin (!s) m

/-- `|x|`: clears the sign, exact (00_scope.md R13). -/
def absVal : NumVal → NumVal
  | .nan => .nan
  | .inf _ => .inf false
  | .fin _ m => .fin false m

/-- `fl(a + b)` of two finite values, from the exact signed sum; an exact zero is +0.0 unless both operands are
negative (IEEE 754; log entry 8). -/
def addFin (f : NumFmt) (sa : Bool) (ma : Nat) (sb : Bool) (mb : Nat) : NumVal :=
  let sum := signedMag sa ma + signedMag sb mb
  if sum = 0 then .fin (sa && sb) 0 else flVal f (decide (sum < 0)) sum.natAbs 1

/-- `fl(a + b)` (00_scope.md R13). -/
def addVal (f : NumFmt) : NumVal → NumVal → NumVal
  | .nan, _ => .nan
  | .inf _, .nan => .nan
  | .inf sa, .inf sb => if sa = sb then .inf sa else .nan
  | .inf sa, .fin _ _ => .inf sa
  | .fin _ _, .nan => .nan
  | .fin _ _, .inf sb => .inf sb
  | .fin sa ma, .fin sb mb => addFin f sa ma sb mb

/-- `fl(a - b)` (00_scope.md R13). -/
def subVal (f : NumFmt) (a b : NumVal) : NumVal := addVal f a (negVal b)

/-- `fl(a * b)` (00_scope.md R13). -/
def mulVal (f : NumFmt) : NumVal → NumVal → NumVal
  | .nan, _ => .nan
  | .inf _, .nan => .nan
  | .inf sa, .inf sb => .inf (sa != sb)
  | .inf sa, .fin sb mb => if mb = 0 then .nan else .inf (sa != sb)
  | .fin _ _, .nan => .nan
  | .fin sa ma, .inf sb => if ma = 0 then .nan else .inf (sa != sb)
  | .fin sa ma, .fin sb mb => flVal f (sa != sb) (ma * mb) (2 ^ fmtUnitExp f)

/-- `fl(a / b)` (00_scope.md R13). -/
def divVal (f : NumFmt) : NumVal → NumVal → NumVal
  | .nan, _ => .nan
  | .inf _, .nan => .nan
  | .inf _, .inf _ => .nan
  | .inf sa, .fin sb _ => .inf (sa != sb)
  | .fin _ _, .nan => .nan
  | .fin sa _, .inf sb => .fin (sa != sb) 0
  | .fin sa ma, .fin sb mb =>
    if mb = 0 then (if ma = 0 then .nan else .inf (sa != sb))
    else flVal f (sa != sb) (ma * 2 ^ fmtUnitExp f) mb

/-- `int_to_num(n)`, which is `fl(n)` (00_scope.md R13). -/
def intToNum (f : NumFmt) (n : Int) : NumVal := flVal f (decide (n < 0)) (n.natAbs * 2 ^ fmtUnitExp f) 1

/-- `fl(p / q)` of a ratio of naturals, the quotient taken exactly and rounded once (00_scope.md R9). A zero divisor
gives no number. -/
def ratioToNum (f : NumFmt) (p q : Nat) : NumVal :=
  if q = 0 then .nan else flVal f false (p * 2 ^ fmtUnitExp f) q

/-- `a < b`, the IEEE comparison: false when either is a NaN, and both zeros are equal (00_scope.md R13). -/
def ltVal : NumVal → NumVal → Bool
  | .nan, _ => false
  | .inf _, .nan => false
  | .inf sa, .inf sb => sa && !sb
  | .inf sa, .fin _ _ => sa
  | .fin _ _, .nan => false
  | .fin _ _, .inf sb => !sb
  | .fin sa ma, .fin sb mb => decide (signedMag sa ma < signedMag sb mb)

/-- `a > b`, the IEEE comparison (00_scope.md R13). -/
def gtVal (a b : NumVal) : Bool := ltVal b a

/-- `a >= b`, the IEEE comparison: false when either is a NaN (00_scope.md R13). -/
def geVal (a b : NumVal) : Bool := !isNaN a && !isNaN b && !ltVal a b

/-- `+0.0`. -/
def posZero : NumVal := .fin false 0

/-- The number 1 in a format. -/
def oneVal (f : NumFmt) : NumVal := .fin false (2 ^ fmtUnitExp f)

/-- A value that the format has a pattern for: a NaN, an infinity, or a magnitude within the format's precision and
range. -/
def representable (f : NumFmt) : NumVal → Bool
  | .nan => true
  | .inf _ => true
  | .fin _ m => decide (m % 2 ^ dropBits f m = 0) && decide (bitLength m ≤ fmtTopExp f)

end Sys2Proof.Machine
end

