-- ==== Sys2Proof/Machine/Flags.lean ====
section
/-!
DEFINITION. The block has no flags, condition codes or predicates (10_state.md R32). What it has in their place are
the sign class of a control value and the deadband's comparison of two sign classes, computed where they are used.
-/

namespace Sys2Proof.Machine

/-- `nonneg(x)` is `x >= 0` as an IEEE comparison: true for both zeros (42_controller.md R144). -/
def nonneg (x : NumVal) : Bool := geVal x posZero

/-- The deadband condition `nonneg(u) != nonneg(U_PREV)` (42_controller.md R145). -/
def deadband (u uPrev : NumVal) : Bool := nonneg u != nonneg uPrev

end Sys2Proof.Machine
end

