-- ==== Sys2Proof/Config.lean ====
section
/-!
DEFINITION. What a build of the block fixes (00_scope.md R8), the default build, and the values the spec leaves open
(the state before the first RESET, 70_reset_and_hazards.md R231).
-/

namespace Sys2Proof

/-- The build parameters (00_scope.md R8). They are arguments of the step function and no operation writes them
(10_state.md R20). -/
structure Build where
  /-- CNT_W: width of the position counter in bits, at least 2. -/
  cntW : Nat
  /-- NUM_FMT: numeric format of the controller datapath. -/
  numFmt : NumFmt
  /-- SP: setpoint, rpm. -/
  sp : NumBits
  /-- B0: PI coefficient. -/
  b0 : NumBits
  /-- B1: PI coefficient. -/
  b1 : NumBits
  /-- A1: PI coefficient. -/
  a1 : NumBits
  /-- V_MAX: voltage limit, volts; greater than 0. -/
  vMax : NumBits
  /-- CPR: encoder counts per revolution, at least 1. -/
  cpr : Nat
  /-- PERIOD_NS: sampling period in nanoseconds, at least 1. -/
  periodNs : Nat
  /-- T0.sec: seconds of the first deadline. -/
  t0Sec : Word64
  /-- T0.nsec: nanoseconds of the first deadline, below 10^9. -/
  t0Nsec : Nat
  /-- INIT_PHASE: decoder phase after reset. -/
  initPhase : Phase
  /-- EDGE_SLIP: whether an edge may be processed after a TICK that followed it physically. -/
  edgeSlip : Bool
  /-- TELEM_ENDIAN: byte order of a serialized sample record. -/
  telemEndian : Endian
  deriving DecidableEq, Repr

/-- A build with the defaults of 00_scope.md R8 and the three OPEN parameters CPR, T0 and TELEM_ENDIAN as
arguments. -/
def Config.defaultBuildWith (cpr : Nat) (t0Sec : Word64) (t0Nsec : Nat) (e : Endian) : Build where
  cntW := 32
  numFmt := .binary32
  sp := .b32 0x42A00000#32
  b0 := .b32 0x3BB2BFDB#32
  b1 := .b32 0x3B626D48#32
  a1 := .b32 0xBF800000#32
  vMax := .b32 0x40C00000#32
  cpr := cpr
  periodNs := 100000000
  t0Sec := t0Sec
  t0Nsec := t0Nsec
  initPhase := .S1
  edgeSlip := false
  telemEndian := e

/-- DESIGN CHOICE (log entry 3; unsafe for a claim that leans on it): the build that `State.reset` carries takes
for the OPEN parameters the values the spec's own test vectors use: CPR = 600, T0 = (10, 950_000_000), LE
(95_test_vectors.md, its opening lines). Every claim worth having quantifies over the build instead. -/
def Config.resetBuild : Build := Config.defaultBuildWith 600 10#64 950000000 .little

/-- PHASE before the first RESET: any value (70_reset_and_hazards.md R231; log entry 5). -/
opaque Config.powerUpPhase : Phase

/-- CH_A before the first RESET: any value (log entry 5). -/
opaque Config.powerUpChA : Bool

/-- CH_B before the first RESET: any value (log entry 5). -/
opaque Config.powerUpChB : Bool

/-- CNT before the first RESET: any value (log entry 5). -/
opaque Config.powerUpCnt : Int

/-- WAKE_SEC before the first RESET: any value (log entry 5). -/
opaque Config.powerUpWakeSec : Word64

/-- WAKE_NSEC before the first RESET: any value (log entry 5). -/
opaque Config.powerUpWakeNsec : Word64

/-- E_PREV before the first RESET: any value (log entry 5). -/
opaque Config.powerUpEPrev : NumBits

/-- U_PREV before the first RESET: any value (log entry 5). -/
opaque Config.powerUpUPrev : NumBits

end Sys2Proof
end

