-- ==== Sys2Proof/Machine/Params.lean ====
section
/-!
DEFINITION. The constants a build derives, and which builds are valid (00_scope.md R9, R10).
-/

namespace Sys2Proof.Machine

/-- K_VEL = fl(60 * 10^9 / (CPR * PERIOD_NS)), the exact quotient rounded once (00_scope.md R9). It is fixed by the
build; the model computes it where a TICK uses it (log entry 10). -/
def kVel (b : Build) : NumVal := ratioToNum b.numFmt (60 * 10 ^ 9) (b.cpr * b.periodNs)

/-- A parameter of type NUM: its pattern is one of the build's format (00_scope.md R8, R13; log entry 7) and stands
for a finite value (R10). -/
def paramFinite (b : Build) (x : NumBits) : Bool := decide (numFmtOf x = b.numFmt) && isFinite (numVal x)

/-- The build meets every condition of 00_scope.md R10. -/
def buildValid (b : Build) : Bool :=
  decide (2 ≤ b.cntW) && decide (1 ≤ b.cpr) && decide (1 ≤ b.periodNs) && decide (b.t0Nsec < 10 ^ 9) &&
  paramFinite b b.sp && paramFinite b b.b0 && paramFinite b b.b1 && paramFinite b b.a1 && paramFinite b b.vMax &&
  isFinite (kVel b) && gtVal (numVal b.vMax) posZero

end Sys2Proof.Machine
end

