-- ==== Sys2Proof/Machine/Controller.lean ====
section
/-!
DEFINITION. The controller's datapath: velocity, error, PI recurrence, saturation, deadband and actuator mapping
(42_controller.md R140 to R146), each one rounding per operator in the written order.
-/

namespace Sys2Proof.Machine

/-- VELOCITY: `v = fl(int_to_num(delta) * K_VEL)` (42_controller.md R140). -/
def velocity (b : Build) (delta : Int) : NumVal := mulVal b.numFmt (intToNum b.numFmt delta) (kVel b)

/-- ERROR: `e = fl(SP - v)` (42_controller.md R141). -/
def errorOf (b : Build) (v : NumVal) : NumVal := subVal b.numFmt (numVal b.sp) v

/-- PI: `u_raw = fl(fl(fl(B0 * e) + fl(B1 * E_PREV)) - fl(A1 * U_PREV))` (42_controller.md R142). -/
def piRaw (b : Build) (e ePrev uPrev : NumVal) : NumVal :=
  subVal b.numFmt
    (addVal b.numFmt (mulVal b.numFmt (numVal b.b0) e) (mulVal b.numFmt (numVal b.b1) ePrev))
    (mulVal b.numFmt (numVal b.a1) uPrev)

/-- SATURATE (42_controller.md R143). -/
def sat (b : Build) (x : NumVal) : NumVal :=
  if gtVal x (numVal b.vMax) then numVal b.vMax
  else if ltVal x (negVal (numVal b.vMax)) then negVal (numVal b.vMax)
  else x

/-- `clip01(x)` (42_controller.md R146). -/
def clip01 (f : NumFmt) (x : NumVal) : NumVal :=
  if ltVal x posZero then posZero else if gtVal x (oneVal f) then oneVal f else x

/-- The value actuated after the deadband: +0.0 for this cycle when the sign class changes, else u
(42_controller.md R145). -/
def actuated (u uPrev : NumVal) : NumVal := if deadband u uPrev then posZero else u

/-- The direction: the sign class of u, even when the deadband holds (42_controller.md R146). -/
def dirOf (u : NumVal) : Dir := if nonneg u then .forward else .reverse

/-- The duty fraction: `clip01(fl(|u_act| / V_MAX))` (42_controller.md R146). -/
def dutyOf (b : Build) (uAct : NumVal) : NumVal :=
  clip01 b.numFmt (divVal b.numFmt (absVal uAct) (numVal b.vMax))

/-- The values of one iteration, local to its TICK (10_state.md R27). -/
structure Iteration where
  v : NumVal
  e : NumVal
  uRaw : NumVal
  u : NumVal
  db : Bool
  uAct : NumVal
  dir : Dir
  duty : NumVal
  deriving DecidableEq, Repr

/-- Steps 3 to 5 of the iteration on the delta taken and the history (41_sample_clock.md R122). -/
def iterate (b : Build) (delta : Int) (ePrev uPrev : NumVal) : Iteration :=
  let v := velocity b delta
  let e := errorOf b v
  let uRaw := piRaw b e ePrev uPrev
  let u := sat b uRaw
  { v := v
    e := e
    uRaw := uRaw
    u := u
    db := deadband u uPrev
    uAct := actuated u uPrev
    dir := dirOf u
    duty := dutyOf b (actuated u uPrev) }

/-- `isNaN(v) or isNaN(e) or isNaN(u_raw)` (41_sample_clock.md R122, 42_controller.md R150). -/
def iterationNaN (it : Iteration) : Bool := isNaN it.v || isNaN it.e || isNaN it.uRaw

end Sys2Proof.Machine
end

