-- ==== Sys2Proof/Machine/Phase.lean ====
section
/-!
DEFINITION. Phases, level pairs and their codes (00_scope.md R16, 10_state.md R21).
-/

namespace Sys2Proof.Machine

/-- `pair(S)`, the (A, B) level pair of a phase (00_scope.md R16). -/
def pairOf : Phase → Levels
  | .S1 => (false, false)
  | .S2 => (true, false)
  | .S3 => (true, true)
  | .S4 => (false, true)

/-- `phase_of(a, b)`, the inverse of `pairOf` (00_scope.md R16). -/
def phaseOf : Levels → Phase
  | (false, false) => .S1
  | (true, false) => .S2
  | (true, true) => .S3
  | (false, true) => .S4

/-- The 2-bit code of PHASE (10_state.md R21). -/
def phaseCode : Phase → BitVec 2
  | .S1 => 0b00#2
  | .S2 => 0b01#2
  | .S3 => 0b10#2
  | .S4 => 0b11#2

/-- The bit of a direction on the port `act_dir`: 0 forward, 1 reverse (30_encoding.md R78, 42_controller.md
R146). -/
def dirBit : Dir → BitVec 1
  | .forward => 0#1
  | .reverse => 1#1

end Sys2Proof.Machine
end

