-- ==== Sys2Proof/Machine/State.lean ====
section
/-!
DEFINITION. The state of the block: the tuple of 10_state.md R20, and beside it what R20 calls the arguments of the
step (the build and the input trace) and one mark of the model, whether the first RESET has happened
(70_reset_and_hazards.md R231). Plain data. The block has no memory and no registers by number (20_memory.md R50,
10_state.md R30).
-/

namespace Sys2Proof.Machine

/-- Why the machine has no further step. All are safe: the machine stops where the spec gives no step. -/
inductive Fault where
  /-- `fault NumericNaN` (42_controller.md R150): a TICK met a NaN. Raised by every step after that TICK, on the
  mark FAULTED that the TICK set. Safe. -/
  | numericNaN
  /-- `fault WakeOverflow` (41_sample_clock.md R127): a TICK would have advanced WAKE_SEC past 2^64 - 1. Raised by
  every step after that TICK, on the mark FAULTED that the TICK set. Safe. -/
  | wakeOverflow
  /-- Stuck: EDGE, PAIR, TICK or a reserved word presented before the first RESET has no step
  (70_reset_and_hazards.md R231, R234). Raised by that event. Safe. -/
  | beforeReset
  deriving DecidableEq, Repr

/-- Why the model gives an input or a build no meaning. All are safe. -/
inductive Refusal where
  /-- An event of the opcode table that has no meaning yet: no arm of `exec` uses it now. Safe. -/
  | notModelled (mnemonic : String)
  /-- `refuse ReservedEvent` (30_encoding.md R75): raised by every step after a reserved word was presented, on the
  mark REFUSED that the word set. Safe. -/
  | reservedEvent
  /-- The build's parameters break 00_scope.md R10, so no step exists: raised by every step of such a build.
  Safe. -/
  | invalidBuild
  deriving DecidableEq, Repr

/-- An output record (10_state.md R28). -/
inductive Record where
  /-- `ACT(dir, duty)`, an actuator command (42_controller.md R147). -/
  | act (dir : Dir) (duty : NumBits)
  /-- `SMP(sec, nsec, v, u)`, a sample record (42_controller.md R148). -/
  | smp (sec nsec : Word64) (v u : NumBits)
  deriving DecidableEq, Repr

/-- The machine's state. -/
structure State where
  /-- PHASE: the decoder's phase (10_state.md R21). -/
  phase : Phase
  /-- CH_A: last accepted level of channel A (10_state.md R22). -/
  chA : Bool
  /-- CH_B: last accepted level of channel B (10_state.md R22). -/
  chB : Bool
  /-- CNT: the position counter, an intCNT_W (10_state.md R24); every write wraps it (log entry 11). -/
  cnt : Int
  /-- WAKE_SEC: seconds of the next deadline (10_state.md R25). -/
  wakeSec : Word64
  /-- WAKE_NSEC: nanoseconds of the next deadline, below 10^9 (10_state.md R25). -/
  wakeNsec : Word64
  /-- E_PREV: the previous iteration's error (10_state.md R26). -/
  ePrev : NumBits
  /-- U_PREV: the previous iteration's saturated control value (10_state.md R26). -/
  uPrev : NumBits
  /-- OUT: the output records, oldest first (10_state.md R28). -/
  out : List Record
  /-- FAULTED: none for false, some reason for true (10_state.md R29; log entry 4). -/
  faulted : Option Fault
  /-- REFUSED: none for false, some reason for true (10_state.md R29; log entry 4). -/
  refused : Option Refusal
  /-- The model's own: the first RESET has happened (70_reset_and_hazards.md R231; log entry 5). -/
  resetSeen : Bool
  /-- The build parameters, arguments of the step that no operation writes (10_state.md R20; log entry 2). -/
  build : Build
  /-- The input events presented and not yet performed, oldest first (10_state.md R20; log entry 1). -/
  trace : List EventWord
  deriving DecidableEq, Repr

/-- `+0.0` in a format. -/
def zeroNum : NumFmt → NumBits
  | .binary32 => .b32 0#32
  | .binary64 => .b64 0#64

/-- The machine of a build right after its first RESET, with no input presented (70_reset_and_hazards.md R230,
10_state.md R20): OUT empty and no mark set, as at power-up. -/
def State.resetOf (b : Build) : State where
  phase := b.initPhase
  chA := (pairOf b.initPhase).1
  chB := (pairOf b.initPhase).2
  cnt := 0
  wakeSec := b.t0Sec
  wakeNsec := BitVec.ofNat 64 b.t0Nsec
  ePrev := zeroNum b.numFmt
  uPrev := zeroNum b.numFmt
  out := []
  faulted := none
  refused := none
  resetSeen := true
  build := b
  trace := []

/-- The machine right after reset, for the build of `Config.resetBuild` (log entry 3). -/
def State.reset : State := State.resetOf Config.resetBuild

/-- The machine of a build before its first RESET: OUT is empty and no mark is set (10_state.md R28, R29); every
other element has any value (70_reset_and_hazards.md R231; log entry 5). -/
def State.powerUp (b : Build) (trace : List EventWord) : State where
  phase := Config.powerUpPhase
  chA := Config.powerUpChA
  chB := Config.powerUpChB
  cnt := Config.powerUpCnt
  wakeSec := Config.powerUpWakeSec
  wakeNsec := Config.powerUpWakeNsec
  ePrev := Config.powerUpEPrev
  uPrev := Config.powerUpUPrev
  out := []
  faulted := none
  refused := none
  resetSeen := false
  build := b
  trace := trace

end Sys2Proof.Machine
end

