-- ==== Sys2Proof/Machine/Ops.lean ====
section
/-!
DEFINITION. The primitives of the pseudocode (00_scope.md R14) over the state: writing a state element, AtomicAdd,
AtomicSwap, emit, fault and refuse; and the one check that says whether an event has a step at all (00_scope.md R10,
10_state.md R29, 70_reset_and_hazards.md R231). The block has no exception to take and none to return from
(60_exceptions.md R200, R205, R206): `markFault` is all that a fault does.
-/

namespace Sys2Proof.Machine

/-- `wrap_N(x)`: the value of intN congruent to x modulo 2^N (00_scope.md R12). -/
def wrapInt (n : Nat) (x : Int) : Int := (x + 2 ^ (n - 1)) % 2 ^ n - 2 ^ (n - 1)

/-- The integer is a value of intN (00_scope.md R12, 43_counter_sync.md R170). -/
def inIntN (n : Nat) (x : Int) : Bool := decide (-(2 ^ (n - 1) : Int) ≤ x) && decide (x < 2 ^ (n - 1))

/-- `PHASE <- p; (CH_A, CH_B) <- n`: the decoder's state is written whole (10_state.md R22). -/
def setDecoder (p : Phase) (n : Levels) (s : State) : State := { s with phase := p, chA := n.1, chB := n.2 }

/-- `CNT <- x`. -/
def setCnt (x : Int) (s : State) : State := { s with cnt := x }

/-- `emit REC`: appends one record to OUT (00_scope.md R14, 10_state.md R28). -/
def emit (r : Record) (s : State) : State := { s with out := s.out ++ [r] }

/-- `E_PREV <- e; U_PREV <- u` (42_controller.md R149). -/
def setHistory (e u : NumBits) (s : State) : State := { s with ePrev := e, uPrev := u }

/-- `(WAKE_SEC, WAKE_NSEC) <- (sec, nsec)` (41_sample_clock.md R123). -/
def setWake (sec nsec : Word64) (s : State) : State := { s with wakeSec := sec, wakeNsec := nsec }

/-- `fault Reason`: the sticky mark FAULTED is set, and nothing else (00_scope.md R14, 10_state.md R29). -/
def markFault (f : Fault) (s : State) : State := { s with faulted := some f }

/-- `refuse Reason`: the sticky mark REFUSED is set, and nothing else (00_scope.md R14, 10_state.md R29). -/
def markRefused (r : Refusal) (s : State) : State := { s with refused := some r }

/-- The first RESET has happened (70_reset_and_hazards.md R231). -/
def markReset (s : State) : State := { s with resetSeen := true }

/-- The input events still to be performed. -/
def setTrace (t : List EventWord) (s : State) : State := { s with trace := t }

/-- `AtomicAdd(CNT, d)`: one indivisible step, wrapping and setting no flag (43_counter_sync.md R171). -/
def atomicAdd (d : Int) (s : State) : State := setCnt (wrapInt s.build.cntW (s.cnt + d)) s

/-- `AtomicSwap(CNT, 0)`: one indivisible step that returns the old CNT and leaves 0 (43_counter_sync.md R172). -/
def atomicSwap (s : State) : Int × State := (s.cnt, setCnt 0 s)

/-- An event of a valid build on an unmarked state has its step `k`; any other has none. An invalid build has no
step at all (00_scope.md R10); a marked state has no further step, RESET included (10_state.md R29). The order of the
three checks is the model's (log entry 4). -/
def unlessStopped (s : State) (k : Host.Outcome State Fault Refusal) : Host.Outcome State Fault Refusal :=
  if buildValid s.build then
    match s.faulted with
    | some f => .fault f
    | none =>
      match s.refused with
      | some r => .refused r
      | none => k
  else .refused .invalidBuild

/-- As `unlessStopped`, for an event that also needs the first RESET to have happened: before it no event has a step
(70_reset_and_hazards.md R231, R234). -/
def afterReset (s : State) (k : Host.Outcome State Fault Refusal) : Host.Outcome State Fault Refusal :=
  unlessStopped s (if s.resetSeen then k else .fault .beforeReset)

/-- A reserved event word is performed: `refuse ReservedEvent`, no other state changes (30_encoding.md R75). -/
def refuseReserved (s : State) : Host.Outcome State Fault Refusal :=
  afterReset s (.next (markRefused .reservedEvent s))

/-- No event is presented: the block holds its state (60_exceptions.md R212; log entry 6). -/
def idle (s : State) : Host.Outcome State Fault Refusal := unlessStopped s (.next s)

/-- The mark FAULTED as the boolean of 10_state.md R29. -/
def faultedMark (s : State) : Bool := s.faulted.isSome

/-- The mark REFUSED as the boolean of 10_state.md R29, which an invalid build sets too (log entry 4). -/
def refusedMark (s : State) : Bool := s.refused.isSome || !buildValid s.build

end Sys2Proof.Machine
end

