-- ==== Sys2Proof/Machine/Clock.lean ====
section
/-!
DEFINITION. The sample clock and the control iteration, agent CTL: the wait, the advance and the event TICK
(41_sample_clock.md).
-/

namespace Sys2Proof.Machine

/-- D = WAKE_SEC * 10^9 + WAKE_NSEC, the next iteration's deadline in nanoseconds (41_sample_clock.md R120). -/
def deadline (s : State) : Nat := s.wakeSec.toNat * 10 ^ 9 + s.wakeNsec.toNat

/-- The wait's condition `now >= D` (41_sample_clock.md R121). The model has no time (R126): no step reads this; it
says what the host owes before it presents a TICK. -/
def waitReturns (now : Nat) (s : State) : Bool := decide (deadline s ≤ now)

/-- The seconds of `advance(sec, nsec)`, exact over Nat (41_sample_clock.md R123). -/
def advanceSec (b : Build) (sec nsec : Nat) : Nat := sec + (nsec + b.periodNs) / 10 ^ 9

/-- The nanoseconds of `advance(sec, nsec)`, exact over Nat (41_sample_clock.md R123). -/
def advanceNsec (b : Build) (nsec : Nat) : Nat := (nsec + b.periodNs) % 10 ^ 9

/-- The values of the iteration that a TICK in this state runs. -/
def iterationOf (s : State) : Iteration := iterate s.build s.cnt (numVal s.ePrev) (numVal s.uPrev)

/-- The ACT record of an iteration (42_controller.md R147). -/
def actRecord (b : Build) (it : Iteration) : Record := .act it.dir (numOf b.numFmt it.duty)

/-- The SMP record of an iteration: the deadline before it advances, v, and the saturated u (42_controller.md
R148). -/
def smpRecord (b : Build) (sec nsec : Word64) (it : Iteration) : Record :=
  .smp sec nsec (numOf b.numFmt it.v) (numOf b.numFmt it.u)

/-- Steps 5 to 6 and the history update: ACT, then SMP, then E_PREV and U_PREV (41_sample_clock.md R122,
20_memory.md R61). -/
def publish (it : Iteration) (s : State) : State :=
  setHistory (numOf s.build.numFmt it.e) (numOf s.build.numFmt it.u)
    (emit (smpRecord s.build s.wakeSec s.wakeNsec it) (emit (actRecord s.build it) s))

/-- Step 7: the deadline advances by one period, added to the previous deadline; seconds past 2^64 - 1 are
`fault WakeOverflow`, the deadline unchanged (41_sample_clock.md R123, R127). -/
def advanceWake (s : State) : State :=
  if advanceSec s.build s.wakeSec.toNat s.wakeNsec.toNat < 2 ^ 64 then
    setWake (BitVec.ofNat 64 (advanceSec s.build s.wakeSec.toNat s.wakeNsec.toNat))
      (BitVec.ofNat 64 (advanceNsec s.build s.wakeNsec.toNat)) s
  else markFault .wakeOverflow s

/-- Steps 3 to 7 of an iteration, once CNT is taken: a NaN faults before anything else is written
(41_sample_clock.md R122, 42_controller.md R150). -/
def runIteration (it : Iteration) (s : State) : State :=
  if iterationNaN it then markFault .numericNaN s else advanceWake (publish it s)

/-- The state after one TICK: the take, then steps 3 to 7 on the delta it returned (41_sample_clock.md R122). -/
def tickEvent (s : State) : State :=
  let (delta, s1) := atomicSwap s
  runIteration (iterate s1.build delta (numVal s1.ePrev) (numVal s1.uPrev)) s1

/-- TICK (41_sample_clock.md R122). -/
def execTick (s : State) : Host.Outcome State Fault Refusal := afterReset s (.next (tickEvent s))

end Sys2Proof.Machine
end

