-- ==== Sys2Proof/Machine/Operands.lean ====
section
/-!
DEFINITION. The operand forms of the decoder's events: the new (A, B) pair an event presents (40_decoder.md R101,
R102). TICK and RESET have no operand (30_encoding.md R73).
-/

namespace Sys2Proof.Machine

/-- The stored pair (CH_A, CH_B) (10_state.md R22). -/
def storedPair (s : State) : Levels := (s.chA, s.chB)

/-- EDGE c, l, step 1: the stored pair with channel c's bit replaced by l, tentatively (40_decoder.md R101). -/
def edgePair (c : Channel) (l : Bool) (s : State) : Levels :=
  match c with
  | .A => (l, s.chB)
  | .B => (s.chA, l)

/-- PAIR a, b: the sampled pair itself (40_decoder.md R102). -/
def sampledPair (a b : Bool) : Levels := (a, b)

end Sys2Proof.Machine
end

