-- ==== Sys2Proof/Machine/Decoder.lean ====
section
/-!
DEFINITION. The quadrature decoder, agent DEC: the transition function and the events EDGE and PAIR
(40_decoder.md).
-/

namespace Sys2Proof.Machine

/-- An accept entry of the transition table (40_decoder.md R100). -/
def accept (q : Phase) (d : Int) : Bool × Phase × Int := (true, q, d)

/-- An ignore entry of the transition table: the phase stays and nothing is counted (40_decoder.md R100). -/
def ignore (p : Phase) : Bool × Phase × Int := (false, p, 0)

/-- T(p, n) = (accept, p', d), the table of 40_decoder.md R100 entry by entry. -/
def transition : Phase → Levels → Bool × Phase × Int
  | .S1, (false, false) => ignore .S1
  | .S1, (true, false) => accept .S2 (-1)
  | .S1, (true, true) => ignore .S1
  | .S1, (false, true) => accept .S4 1
  | .S2, (false, false) => accept .S1 1
  | .S2, (true, false) => ignore .S2
  | .S2, (true, true) => accept .S3 (-1)
  | .S2, (false, true) => ignore .S2
  | .S3, (false, false) => ignore .S3
  | .S3, (true, false) => accept .S2 1
  | .S3, (true, true) => ignore .S3
  | .S3, (false, true) => accept .S4 (-1)
  | .S4, (false, false) => accept .S1 (-1)
  | .S4, (true, false) => ignore .S4
  | .S4, (true, true) => accept .S3 1
  | .S4, (false, true) => ignore .S4

/-- What a decoder event with the new pair n does: an accepted one writes PHASE, CH_A and CH_B and adds its delta to
CNT; an ignored one changes nothing (40_decoder.md R101, R102, R104). -/
def decoderEvent (n : Levels) (s : State) : State :=
  match transition s.phase n with
  | (true, q, d) => atomicAdd d (setDecoder q n s)
  | (false, _, _) => s

/-- EDGE c, l (40_decoder.md R101). It never faults, refuses or waits of its own. -/
def execEdge (c : Channel) (l : Bool) (s : State) : Host.Outcome State Fault Refusal :=
  afterReset s (.next (decoderEvent (edgePair c l s) s))

/-- PAIR a, b (40_decoder.md R102). It never faults, refuses or waits of its own. -/
def execPair (a b : Bool) (s : State) : Host.Outcome State Fault Refusal :=
  afterReset s (.next (decoderEvent (sampledPair a b) s))

end Sys2Proof.Machine
end

