-- ==== Sys2Proof/Machine/Reset.lean ====
section
/-!
DEFINITION. The event RESET (70_reset_and_hazards.md R230).
-/

namespace Sys2Proof.Machine

/-- What RESET writes: every element of 10_state.md R20 except OUT, FAULTED and REFUSED
(70_reset_and_hazards.md R230); and that a RESET has happened (R231). -/
def resetEvent (s : State) : State :=
  markReset
    (setHistory (zeroNum s.build.numFmt) (zeroNum s.build.numFmt)
      (setWake s.build.t0Sec (BitVec.ofNat 64 s.build.t0Nsec)
        (setCnt 0 (setDecoder s.build.initPhase (pairOf s.build.initPhase) s))))

/-- RESET (70_reset_and_hazards.md R230): it may come at any point and also first (R231), but a marked state has no
step. -/
def execReset (s : State) : Host.Outcome State Fault Refusal := unlessStopped s (.next (resetEvent s))

end Sys2Proof.Machine
end

