-- ==== Sys2Proof/Syntax.lean ====
section
/-!
DEFINITION. The events of the QDPI event interface, edition 1: one constructor per row of spec/opcode_table.json
(30_encoding.md R71, R72).
-/

namespace Sys2Proof

/-- An input event. -/
inductive Instr where
  /-- `EDGE c, l`: one edge event, channel `c` has the new level `l` (40_decoder.md R101). -/
  | edge (c : Channel) (l : Bool)
  /-- `PAIR a, b`: one sample of both channels at once (40_decoder.md R102). -/
  | pair (a b : Bool)
  /-- `TICK`: the absolute wait has returned; one control iteration (41_sample_clock.md R122). -/
  | tick
  /-- `RESET`: reset the whole block (70_reset_and_hazards.md R230). -/
  | reset
  deriving DecidableEq, Repr

end Sys2Proof
end

