-- ==== Sys2Proof/WellFormed.lean ====
section
/-!
DEFINITION. Well-formedness of what the host presents. Every operand of every event is one bit, read as a boolean
(30_encoding.md R72, R73), so the type `Instr` admits no ill-formed event; what can be ill-formed is a WORD: 246 of
the 256 event words are reserved (30_encoding.md R74, R75). The two checks stand here.
-/

namespace Sys2Proof

/-- The ten event words that have a meaning (30_encoding.md R74, R79). -/
def definedWords : List EventWord :=
  [0x10, 0x11, 0x12, 0x13, 0x20, 0x21, 0x22, 0x23, 0x30, 0xF0]

/-- An event word is well-formed when it is one of the ten of 30_encoding.md R74; every other word is reserved
(R75). -/
def wordWellFormed (w : EventWord) : Bool := definedWords.contains w

/-- An event is well-formed when its operands are single bits, which its type already says (30_encoding.md R73). -/
def wellFormed : Instr → Bool
  | .edge _ _ => true
  | .pair _ _ => true
  | .tick => true
  | .reset => true

end Sys2Proof
end

