-- ==== Sys2Proof/Decode.lean ====
section
/-!
DEFINITION. The decoder and the encoder of event words (30_encoding.md R70 to R77).
-/

namespace Sys2Proof

/-- Why a word, or a stretch of bytes, is no event. -/
inductive DecodeError where
  /-- The word is one of the 246 reserved words (30_encoding.md R75). -/
  | reservedEvent
  /-- No byte is there to be read (an event is exactly one byte, 30_encoding.md R70). -/
  | noWord
  deriving DecidableEq, Repr

/-- Bit 1 of an EDGE word: the channel, 0 for A and 1 for B (30_encoding.md R72). -/
def channelOfBit (b : Bool) : Channel := if b then .B else .A

/-- The channel's bit in an EDGE word (30_encoding.md R72). -/
def bitOfChannel : Channel → Bool
  | .A => false
  | .B => true

/-- The event a word stands for, by match and mask (30_encoding.md R74); a reserved word is rejected by name
(R75). -/
def decode (w : EventWord) : Except DecodeError Instr :=
  if w &&& 0xFC#8 = 0x10#8 then .ok (.edge (channelOfBit (w.getLsbD 1)) (w.getLsbD 0))
  else if w &&& 0xFC#8 = 0x20#8 then .ok (.pair (w.getLsbD 1) (w.getLsbD 0))
  else if w = 0x30#8 then .ok .tick
  else if w = 0xF0#8 then .ok .reset
  else .error .reservedEvent

/-- The first event of a stretch of bytes and the bytes after it: one byte an event, with no prefix, suffix or
continuation (30_encoding.md R70, R77). -/
def decodeBytes : List Byte → Except DecodeError (Instr × List Byte)
  | [] => .error .noWord
  | w :: rest =>
    match decode w with
    | .ok i => .ok (i, rest)
    | .error e => .error e

/-- The event read from a table word: the word is one byte, so `nbits` is 8 and `w` is that byte's value. -/
def decodeTableWord (nbits w : Nat) : Option Instr :=
  if nbits = 8 ∧ w < 256 then
    match decodeBytes [BitVec.ofNat 8 w] with
    | .ok (i, []) => some i
    | _ => none
  else none

/-- Two operand bits as the low bits of a word: the high one is bit 1 and the low one bit 0. -/
def operandBits (hi lo : Bool) : EventWord :=
  (if hi then 2#8 else 0#8) ||| (if lo then 1#8 else 0#8)

/-- The word of an event (30_encoding.md R71). -/
def encode : Instr → EventWord
  | .edge c l => 0x10#8 ||| operandBits (bitOfChannel c) l
  | .pair a b => 0x20#8 ||| operandBits a b
  | .tick => 0x30#8
  | .reset => 0xF0#8

/-- An event's words as the host presents them: exactly one (30_encoding.md R70). -/
def encodeBytes (i : Instr) : List Byte := [encode i]

/-- The agent that performs an event (30_encoding.md R71; 00_scope.md R6). -/
def agentOf : Instr → Agent
  | .edge _ _ => .DEC
  | .pair _ _ => .DEC
  | .tick => .CTL
  | .reset => .ENV

/-- The operation field OP = w[7:4] of an event word (30_encoding.md R70). -/
def opField (w : EventWord) : BitVec 4 := w.extractLsb' 4 4

end Sys2Proof
end

