-- ==== Sys2Proof/Machine/Fetch.lean ====
section
/-!
DEFINITION. Which event a step performs: the oldest word of the input trace, decoded (10_state.md R31,
43_counter_sync.md R176, R178).
-/

namespace Sys2Proof.Machine

/-- What the block finds at its input. -/
inductive Presented where
  /-- No event is presented. -/
  | nothing
  /-- An event, and the words after it. -/
  | event (i : Instr) (rest : List EventWord)
  /-- A reserved word, and the words after it (30_encoding.md R75). -/
  | reserved (rest : List EventWord)
  deriving DecidableEq, Repr

/-- The oldest presented event. -/
def presented (s : State) : Presented :=
  match decodeBytes s.trace with
  | .ok (i, rest) => .event i rest
  | .error .reservedEvent => .reserved s.trace.tail
  | .error .noWord => .nothing

end Sys2Proof.Machine
end

