-- ==== Sys2Proof/Machine/Step.lean ====
section
/-!
DEFINITION. One step of the machine: the oldest presented event word is taken from the input trace and performed
(10_state.md R20, R31; 20_memory.md R56).
-/

namespace Sys2Proof.Machine

/-- One atomic step: the event presented is performed on the state without its word; a reserved word is refused; with
nothing presented the block holds its state. -/
def step (s : State) : Host.Outcome State Fault Refusal :=
  match presented s with
  | .nothing => idle s
  | .event i rest => exec i (setTrace rest s)
  | .reserved rest => refuseReserved (setTrace rest s)

/-- The state with one more event word presented as the very next one. An event is one byte, so every bit of `w`
above bit 7 is zero. A program is presented from outside the machine (log entry 1). -/
def State.withFetchWord (s : State) (_nbits w : Nat) : State := setTrace (BitVec.ofNat 8 w :: s.trace) s

end Sys2Proof.Machine
end

