-- ==== Sys2Proof/Machine/Trace.lean ====
section
/-!
DEFINITION. Input traces: the pseudo-events (30_encoding.md R80) and which serialized traces the host may present for
a given physical order of events (43_counter_sync.md R176, R178). The block performs the trace it is given, in its
order; nothing here is read by a step.
-/

namespace Sys2Proof.Machine

/-- `CYCLE_DEC` (30_encoding.md R80). -/
def cycleDec : List Instr := [.edge .A true, .edge .B true, .edge .A false, .edge .B false]

/-- `CYCLE_INC` (30_encoding.md R80). -/
def cycleInc : List Instr := [.edge .B true, .edge .A true, .edge .B false, .edge .A false]

/-- `TICKS n` (30_encoding.md R80). -/
def ticks (n : Nat) : List Instr := List.replicate n .tick

/-- The words of a list of events. -/
def encodeTrace (is : List Instr) : List EventWord := is.map encode

/-- The events of a whole stretch of words, in order; an error where one of them is reserved (30_encoding.md R74,
R75). -/
def decodeTrace : List EventWord → Except DecodeError (List Instr)
  | [] => .ok []
  | w :: rest =>
    match decode w, decodeTrace rest with
    | .ok i, .ok is => .ok (i :: is)
    | .ok _, .error e => .error e
    | .error e, _ => .error e

/-- An event with its instant in nanoseconds: a decoder event's own instant, a TICK's deadline
(43_counter_sync.md R176). -/
structure Timed where
  time : Nat
  event : Instr
  deriving DecidableEq, Repr

/-- The events of one agent, in their order (43_counter_sync.md R176, R178). -/
def streamOf (a : Agent) (t : List Timed) : List Timed := t.filter fun x => agentOf x.event = a

/-- The trace keeps the decoder events in their own order and the TICKs in theirs, and holds no others. -/
def sameStreams (phys t : List Timed) : Bool :=
  decide (streamOf .DEC t = streamOf .DEC phys) && decide (streamOf .CTL t = streamOf .CTL phys) &&
  decide (t.length = phys.length)

/-- No decoder event of the list precedes the instant `d`. -/
def noEdgeBefore (d : Nat) (t : List Timed) : Bool :=
  t.all fun x => !(decide (agentOf x.event = .DEC) && decide (x.time < d))

/-- Every decoder event stands before the TICK of every deadline that it precedes; one at the very instant of a
deadline may stand on either side (43_counter_sync.md R176). -/
def edgesBeforeDeadlines : List Timed → Bool
  | [] => true
  | x :: rest =>
    (if agentOf x.event = .CTL then noEdgeBefore x.time rest else true) && edgesBeforeDeadlines rest

/-- A trace without RESET that the host may present for the physical events `phys`, under EDGE_SLIP = `slip`
(43_counter_sync.md R176). -/
def admittedRun (slip : Bool) (phys t : List Timed) : Bool :=
  sameStreams phys t && (slip || edgesBeforeDeadlines t)

/-- The stretches between the RESETs of a trace. -/
def segments : List Timed → List (List Timed)
  | [] => [[]]
  | x :: rest =>
    if x.event = .reset then [] :: segments rest
    else match segments rest with
      | [] => [[x]]
      | g :: gs => (x :: g) :: gs

/-- A trace that the host may present: a RESET is one step between two others and nothing moves across it
(60_exceptions.md R204; log entry 12); between two RESETs, `admittedRun`. -/
def admitted (slip : Bool) (phys t : List Timed) : Bool :=
  decide ((segments phys).length = (segments t).length) &&
  ((segments phys).zip (segments t)).all fun p => admittedRun slip p.1 p.2

/-- The traces that the host of a build may present, by that build's EDGE_SLIP (43_counter_sync.md R176). -/
def admittedBy (b : Build) (phys t : List Timed) : Bool := admitted b.edgeSlip phys t

end Sys2Proof.Machine
end

