-- ==== Sys2Proof/Machine/Assembler.lean ====
section
/-!
DEFINITION. The text of an event trace (30_encoding.md R79, R80): one event per line, `;` starts a comment, mnemonics
and channel letters not case-sensitive. Text is a list of characters. What the spec does not say of blanks is log
entry 13.
-/

namespace Sys2Proof.Machine

/-- A blank between two parts of a line (log entry 13). -/
def isBlank (c : Char) : Bool := c == ' ' || c == '\t' || c == '\r'

/-- A token, read backwards so far, put before the tokens after it unless it is empty. -/
def flushToken (cur : List Char) (rest : List (List Char)) : List (List Char) :=
  if cur.isEmpty then rest else cur.reverse :: rest

/-- The tokens of a line, in capitals, its comment dropped; a comma is a token of its own. -/
def tokensFrom : List Char → List Char → List (List Char)
  | cur, [] => flushToken cur []
  | cur, c :: cs =>
    if c = ';' then flushToken cur []
    else if isBlank c then flushToken cur (tokensFrom [] cs)
    else if c = ',' then flushToken cur ([','] :: tokensFrom [] cs)
    else tokensFrom (c.toUpper :: cur) cs

/-- A channel letter. -/
def channelToken (t : List Char) : Option Channel :=
  if t = ['A'] then some .A else if t = ['B'] then some .B else none

/-- A level. -/
def levelToken (t : List Char) : Option Bool :=
  if t = ['0'] then some false else if t = ['1'] then some true else none

/-- A decimal number read after the digits read so far. -/
def numberFrom : Nat → List Char → Option Nat
  | n, [] => some n
  | n, c :: cs => if c.isDigit then numberFrom (10 * n + (c.toNat - 48)) cs else none

/-- An event of one token, with its fixed expansion (30_encoding.md R79, R80). -/
def assembleOne (m : List Char) : Option (List Instr) :=
  if m = ['T', 'I', 'C', 'K'] then some [.tick]
  else if m = ['R', 'E', 'S', 'E', 'T'] then some [.reset]
  else if m = ['C', 'Y', 'C', 'L', 'E', '_', 'D', 'E', 'C'] then some cycleDec
  else if m = ['C', 'Y', 'C', 'L', 'E', '_', 'I', 'N', 'C'] then some cycleInc
  else none

/-- `TICKS n`, for n at least 1 (30_encoding.md R80). -/
def assembleTicks (m n : List Char) : Option (List Instr) :=
  if m = ['T', 'I', 'C', 'K', 'S'] then
    match numberFrom 0 n with
    | some (k + 1) => some (ticks (k + 1))
    | _ => none
  else none

/-- `EDGE c, l` and `PAIR a, b` (30_encoding.md R79). -/
def assembleTwo (m x y : List Char) : Option (List Instr) :=
  if m = ['E', 'D', 'G', 'E'] then
    match channelToken x, levelToken y with
    | some c, some l => some [.edge c l]
    | _, _ => none
  else if m = ['P', 'A', 'I', 'R'] then
    match levelToken x, levelToken y with
    | some a, some b => some [.pair a b]
    | _, _ => none
  else none

/-- The events of one line's tokens; a line with no token has none. -/
def assembleTokens : List (List Char) → Option (List Instr)
  | [] => some []
  | [m] => assembleOne m
  | [m, n] => assembleTicks m n
  | [m, x, c, y] => if c = [','] then assembleTwo m x y else none
  | _ => none

/-- The events of one line (30_encoding.md R79). -/
def assembleLine (line : List Char) : Option (List Instr) := assembleTokens (tokensFrom [] line)

/-- The lines of a text, the first one read backwards so far. -/
def linesFrom : List Char → List Char → List (List Char)
  | cur, [] => [cur.reverse]
  | cur, c :: cs => if c = '\n' then cur.reverse :: linesFrom [] cs else linesFrom (c :: cur) cs

/-- The events of lines one after another; none when a line is no event. -/
def assembleLines : List (List Char) → Option (List Instr)
  | [] => some []
  | l :: ls =>
    match assembleLine l, assembleLines ls with
    | some is, some js => some (is ++ js)
    | _, _ => none

/-- The event words of a trace text (30_encoding.md R79). -/
def assemble (text : List Char) : Option (List EventWord) := (assembleLines (linesFrom [] text)).map encodeTrace

/-- A level as text. -/
def levelText (l : Bool) : Char := if l then '1' else '0'

/-- The text of an event as 30_encoding.md R79's table writes it. -/
def eventText : Instr → List Char
  | .edge .A l => ['E', 'D', 'G', 'E', ' ', 'A', ',', ' ', levelText l]
  | .edge .B l => ['E', 'D', 'G', 'E', ' ', 'B', ',', ' ', levelText l]
  | .pair a b => ['P', 'A', 'I', 'R', ' ', levelText a, ',', ' ', levelText b]
  | .tick => ['T', 'I', 'C', 'K']
  | .reset => ['R', 'E', 'S', 'E', 'T']

end Sys2Proof.Machine
end

