-- ==== Sys2Proof/Machine/Telemetry.lean ====
section
/-!
DEFINITION. The bytes of a serialized sample record. Serializing is the host's business and outside the block
(00_scope.md R5); the layout is the one of the worked example V-L1-8 (95_test_vectors.md), in the byte order
TELEM_ENDIAN (20_memory.md R52). No step reads anything here (log entry 14).
-/

namespace Sys2Proof.Machine

/-- The low `n` bytes of a number, the least significant first. -/
def lowBytes (n x : Nat) : List Byte := (List.range n).map fun k => BitVec.ofNat 8 (x / 256 ^ k)

/-- Bytes, least significant first, put into a byte order. -/
def inOrder (e : Endian) (bs : List Byte) : List Byte :=
  match e with
  | .little => bs
  | .big => bs.reverse

/-- The bytes of a NUM: 4 for binary32; 8 for binary64 (log entry 14). -/
def numBytes (e : Endian) : NumBits → List Byte
  | .b32 w => inOrder e (lowBytes 4 w.toNat)
  | .b64 w => inOrder e (lowBytes 8 w.toNat)

/-- The four writes of a sample record, in their order: seconds, nanoseconds, velocity, control
(95_test_vectors.md V-L1-8); an actuator command has no frame. -/
def telemetryFrame (e : Endian) : Record → Option (List Byte)
  | .act _ _ => none
  | .smp sec nsec v u =>
    some (inOrder e (lowBytes 8 sec.toNat) ++ inOrder e (lowBytes 8 nsec.toNat) ++ numBytes e v ++ numBytes e u)

/-- The frame of a record that the block of a state emitted, in that build's byte order. -/
def frameOf (s : State) (r : Record) : Option (List Byte) := telemetryFrame s.build.telemEndian r

end Sys2Proof.Machine
end

