-- ==== Sys2Proof/Safety.lean ====
section
/-!
DEFINITION. The terms that claims use: which states run, what a good state is, and the bookkeeping of a run.
-/

namespace Sys2Proof.Machine

/-- The state's events have a step: the build is valid, no mark is set, and the first RESET has happened (00_scope.md
R10, 10_state.md R29, 70_reset_and_hazards.md R231). -/
def Running (s : State) : Prop :=
  buildValid s.build = true ∧ s.faulted = none ∧ s.refused = none ∧ s.resetSeen = true

/-- `lo <= x <= hi` as IEEE comparisons, so that x is no NaN (00_scope.md R13). -/
def within (lo hi x : NumVal) : Bool := geVal x lo && geVal hi x

/-- What every state after a RESET satisfies (10_state.md R20, R22, R25, R26): the channel bits are the phase's pair,
CNT is an intCNT_W, WAKE_NSEC is below 10^9, both NUM registers hold patterns of the build's format, E_PREV is no NaN
and U_PREV is within the voltage limit. -/
structure Good (s : State) : Prop where
  pair : storedPair s = pairOf s.phase
  cnt : inIntN s.build.cntW s.cnt = true
  nsec : s.wakeNsec.toNat < 10 ^ 9
  eFmt : numFmtOf s.ePrev = s.build.numFmt
  uFmt : numFmtOf s.uPrev = s.build.numFmt
  eNum : isNaN (numVal s.ePrev) = false
  uLim : within (negVal (numVal s.build.vMax)) (numVal s.build.vMax) (numVal s.uPrev) = true

/-- A state after its first RESET is good. -/
def Inv (s : State) : Prop := s.resetSeen = true → Good s

/-- No value of the iteration that a TICK runs in this state is a NaN (42_controller.md R150). -/
def NoNaN (s : State) : Prop := iterationNaN (iterationOf s) = false

/-- The advance of this state's deadline stays below 2^64 seconds (41_sample_clock.md R127). -/
def WakeFits (s : State) : Prop := advanceSec s.build s.wakeSec.toNat s.wakeNsec.toNat < 2 ^ 64

/-- The events one after another, each of them giving a next state. -/
def runEvents : List Instr → State → Option State
  | [], s => some s
  | i :: is, s =>
    match exec i s with
    | .next t => runEvents is t
    | .fault _ => none
    | .refused _ => none

/-- The delta that an event adds to CNT in a state: that of an accepted decoder event, else 0 (40_decoder.md R100). -/
def eventDelta (i : Instr) (s : State) : Int :=
  match i with
  | .edge c l => (transition s.phase (edgePair c l s)).2.2
  | .pair a b => (transition s.phase (sampledPair a b)).2.2
  | .tick => 0
  | .reset => 0

/-- The delta that an event's take returns in a state: CNT for TICK, else 0 (43_counter_sync.md R172). -/
def eventTake (i : Instr) (s : State) : Int :=
  match i with
  | .edge _ _ => 0
  | .pair _ _ => 0
  | .tick => s.cnt
  | .reset => 0

/-- The sum of a quantity of each event of a run, taken in the state that event starts from. -/
def sumEvents (g : Instr → State → Int) : List Instr → State → Int
  | [], _ => 0
  | i :: is, s =>
    match exec i s with
    | .next t => g i s + sumEvents g is t
    | .fault _ => 0
    | .refused _ => 0

/-- The host's duty on time (41_sample_clock.md R126, 00_scope.md R7): each TICK of a run is presented at an instant
at which the wait for that iteration's deadline has returned. Here an event's instant is when it is presented. No step
checks this. -/
def hostTimely : List Timed → State → Bool
  | [], _ => true
  | x :: rest, s =>
    (if x.event = .tick then waitReturns x.time s else true) &&
    match exec x.event s with
    | .next t => hostTimely rest t
    | .fault _ => true
    | .refused _ => true

/-- How many of the events are TICKs. -/
def countTicks (is : List Instr) : Nat := is.count .tick

/-- The event is a decoder event. -/
def isDecoderEvent (i : Instr) : Bool := decide (agentOf i = .DEC)

/-- The elements that DEC owns and CTL never writes (20_memory.md R51). -/
def sameDecoder (s t : State) : Prop := t.phase = s.phase ∧ t.chA = s.chA ∧ t.chB = s.chB

/-- The elements that CTL owns and DEC never writes, OUT among them (10_state.md R20). -/
def sameControl (s t : State) : Prop :=
  t.wakeSec = s.wakeSec ∧ t.wakeNsec = s.wakeNsec ∧ t.ePrev = s.ePrev ∧ t.uPrev = s.uPrev ∧ t.out = s.out

/-- The marks FAULTED and REFUSED. -/
def sameMarks (s t : State) : Prop := t.faulted = s.faulted ∧ t.refused = s.refused

/-- The arguments of the step: the build and the input trace (10_state.md R20). -/
def sameArguments (s t : State) : Prop := t.build = s.build ∧ t.trace = s.trace

/-- The build has the default parameters of 00_scope.md R8; the OPEN ones are any. -/
def defaultParameters (b : Build) : Prop :=
  ∃ cpr sec nsec e, b = Config.defaultBuildWith cpr sec nsec e

/-- E_PREV is finite and at most 2^68 in magnitude (a bound for the default build, 42_controller.md R150). -/
def SmallError (s : State) : Prop :=
  ∃ neg m, numVal s.ePrev = .fin neg m ∧ m ≤ 2 ^ (68 + fmtUnitExp s.build.numFmt)

/-- The exact number of a finite value: its signed count of units (00_scope.md R13). -/
def exactVal (f : NumFmt) (neg : Bool) (mag : Nat) : ℚ := (signedMag neg mag : ℚ) / 2 ^ fmtUnitExp f

/-- Half a unit in the last place above the largest finite value: an exact result of this magnitude or more rounds to
an infinity (IEEE 754; log entry 8). -/
def overflowBound (f : NumFmt) : ℚ :=
  (2 ^ (fmtPrec f + 1) - 1) * 2 ^ (fmtTopExp f - fmtPrec f - 1) / 2 ^ fmtUnitExp f

/-- The value is `fl(x)`, the exact x rounded once to nearest with ties to even (00_scope.md R13), said without the
function that computes it: it has the sign of x; its significand fits the format's precision; no magnitude that fits is
nearer to x, and when another is as near, the value's significand is even. The sign of the result for x = 0 is left
open. -/
def IsFl (f : NumFmt) (x : ℚ) : NumVal → Prop
  | .nan => False
  | .inf neg => overflowBound f ≤ |x| ∧ (neg = true ↔ x < 0)
  | .fin neg r =>
    |x| < overflowBound f ∧ r % 2 ^ dropBits f r = 0 ∧ (0 < x → neg = false) ∧ (x < 0 → neg = true) ∧
    ∀ m, m % 2 ^ dropBits f m = 0 →
      |x - exactVal f neg r| ≤ |x - exactVal f neg m| ∧
      (|x - exactVal f neg r| = |x - exactVal f neg m| → m ≠ r → r / 2 ^ dropBits f r % 2 = 0)

end Sys2Proof.Machine
end

