-- ==== Sys2Proof/Certificates/Slice0/Obligations.lean ====
section
/-!
DEFINITION. The statements for the provers.
-/

open Sys2Proof Sys2Proof.Machine

/-! ### Steps, decoding, marks -/

/-- A step performs the oldest presented event: exec of the decoded event on the state without its word
(10_state.md R20, R31; 43_counter_sync.md R176, R178). -/
def Obligations.StepPerformsDecodedEvent : Prop :=
  ∀ (s : State) (w : EventWord) (rest : List EventWord) (i : Instr),
    s.trace = w :: rest → decode w = .ok i → step s = exec i (setTrace rest s)

/-- The ten words of 30_encoding.md R79 and the events they stand for (R71, R72, R74). -/
def Obligations.TableWordsDecode : Prop :=
  decode 0x10 = .ok (.edge .A false) ∧ decode 0x11 = .ok (.edge .A true) ∧
  decode 0x12 = .ok (.edge .B false) ∧ decode 0x13 = .ok (.edge .B true) ∧
  decode 0x20 = .ok (.pair false false) ∧ decode 0x21 = .ok (.pair false true) ∧
  decode 0x22 = .ok (.pair true false) ∧ decode 0x23 = .ok (.pair true true) ∧
  decode 0x30 = .ok .tick ∧ decode 0xF0 = .ok .reset

/-- Decoding an encoded event gives it back, at every value of its operands (30_encoding.md R71 to R74). -/
def Obligations.DecodeEncodeAgree : Prop := ∀ i : Instr, wellFormed i = true → decode (encode i) = .ok i

/-- A stretch of words decodes to a list of events exactly when it is the encoding of that list: no bit is dropped
and no two events share a word, over traces of any length (30_encoding.md R70, R74, R77, R79). -/
def Obligations.TraceDecodeEncodeAgree : Prop :=
  ∀ (ws : List EventWord) (is : List Instr), decodeTrace ws = .ok is ↔ ws = encodeTrace is

/-- 30_encoding.md R75: 246 words are reserved, 0x14 and 0x31 among them; a reserved word sets REFUSED and changes no
other state (but that the word is taken from the input). -/
def Obligations.ReservedWordIsRefused : Prop :=
  ((List.range 256).filter fun n => !wordWellFormed (BitVec.ofNat 8 n)).length = 246 ∧
  wordWellFormed 0x14 = false ∧ wordWellFormed 0x31 = false ∧
  ∀ (s : State) (w : EventWord) (rest : List EventWord),
    Running s → s.trace = w :: rest → wordWellFormed w = false →
      step s = .next { s with trace := rest, refused := some .reservedEvent }

/-- 10_state.md R29: on a marked state no event has a step, RESET included. -/
def Obligations.MarkedStateHasNoStep : Prop :=
  ∀ s : State, (s.faulted ≠ none ∨ s.refused ≠ none) →
    (∀ i t, exec i s ≠ .next t) ∧ ∀ t, step s ≠ .next t

/-- Every way a mark is set (60_exceptions.md R201, 10_state.md R29): FAULTED only by a TICK that meets a NaN or
passes 2^64 seconds, with the reason of that fault; REFUSED only by a reserved word. -/
def Obligations.MarksAreSetOnlyAsListed : Prop :=
  ∀ s t : State, step s = .next t →
    s.faulted = none ∧ s.refused = none ∧
    (∀ f, t.faulted = some f →
      (∃ rest, s.trace = 0x30 :: rest) ∧
      ((f = .numericNaN ∧ ¬ NoNaN s) ∨ (f = .wakeOverflow ∧ NoNaN s ∧ ¬ WakeFits s))) ∧
    (∀ r, t.refused = some r →
      r = .reservedEvent ∧ ∃ w rest, s.trace = w :: rest ∧ wordWellFormed w = false)

/-- 00_scope.md R10: a build that breaks any of the conditions has no step. -/
def Obligations.InvalidBuildIsRefused : Prop :=
  ∀ s : State,
    (s.build.cntW < 2 ∨ s.build.cpr < 1 ∨ s.build.periodNs < 1 ∨ 10 ^ 9 ≤ s.build.t0Nsec ∨
      isFinite (numVal s.build.sp) = false ∨ isFinite (numVal s.build.b0) = false ∨
      isFinite (numVal s.build.b1) = false ∨ isFinite (numVal s.build.a1) = false ∨
      isFinite (numVal s.build.vMax) = false ∨ isFinite (kVel s.build) = false ∨
      gtVal (numVal s.build.vMax) posZero = false) →
    (∀ i, exec i s = .refused .invalidBuild) ∧ step s = .refused .invalidBuild

/-- 70_reset_and_hazards.md R231, R234: before the first RESET no event has a step but RESET itself, nor has a
reserved word. -/
def Obligations.OnlyResetRunsFirst : Prop :=
  ∀ s : State, buildValid s.build = true → s.faulted = none → s.refused = none → s.resetSeen = false →
    (∀ i, i ≠ .reset → exec i s = .fault .beforeReset) ∧
    (∃ t, exec .reset s = .next t ∧ t.resetSeen = true) ∧
    (∀ w rest, s.trace = w :: rest → w ≠ 0xF0 → step s = .fault .beforeReset)

/-- With nothing presented the block holds its state (the model's choice of log entry 6, after 60_exceptions.md
R212). -/
def Obligations.IdleHoldsState : Prop :=
  ∀ s : State, Running s → s.trace = [] → step s = .next s

/-- Each presented event is performed once, in arrival order, and no step writes the build (43_counter_sync.md R178,
10_state.md R20). -/
def Obligations.StepTakesOneWordAndKeepsBuild : Prop :=
  ∀ s t : State, step s = .next t → t.build = s.build ∧ t.trace = s.trace.tail

/-! ### RESET -/

/-- 70_reset_and_hazards.md R230: what RESET writes, and that it leaves the rest; `zeroNum` is +0.0; on a marked state
it has no step. (The model's mark that a RESET has happened is set: log entry 5.) -/
def Obligations.ResetResult : Prop :=
  (∀ s : State, buildValid s.build = true → s.faulted = none → s.refused = none →
    exec .reset s = .next { s with
      phase := s.build.initPhase
      chA := (pairOf s.build.initPhase).1
      chB := (pairOf s.build.initPhase).2
      cnt := 0
      wakeSec := s.build.t0Sec
      wakeNsec := BitVec.ofNat 64 s.build.t0Nsec
      ePrev := zeroNum s.build.numFmt
      uPrev := zeroNum s.build.numFmt
      resetSeen := true }) ∧
  (∀ f, numVal (zeroNum f) = posZero ∧ numFmtOf (zeroNum f) = f) ∧
  (∀ s t : State, (s.faulted ≠ none ∨ s.refused ≠ none) → exec .reset s ≠ .next t)

/-- The state after reset is what RESET makes of the state before it, whatever that is (70_reset_and_hazards.md R230,
R231; the power-up values are any, log entry 5). -/
def Obligations.ResetLeavesTheResetState : Prop :=
  ∀ b : Build, buildValid b = true → exec .reset (State.powerUp b []) = .next (State.resetOf b)

/-- The reset values with the default parameters, any CPR, T0 and byte order (70_reset_and_hazards.md R230, its
example; 10_state.md R20). -/
def Obligations.DefaultResetValues : Prop :=
  ∀ (cpr : Nat) (sec : Word64) (nsec : Nat) (e : Endian), nsec < 10 ^ 9 →
    let s := State.resetOf (Config.defaultBuildWith cpr sec nsec e)
    s.phase = .S1 ∧ s.chA = false ∧ s.chB = false ∧ s.cnt = 0 ∧ deadline s = sec.toNat * 10 ^ 9 + nsec ∧
    numVal s.ePrev = posZero ∧ numVal s.uPrev = posZero ∧ s.out = [] ∧ s.faulted = none ∧ s.refused = none

/-- After RESET the block is ready: the machine's own reset state runs (70_reset_and_hazards.md R232; its build is the
model's choice, log entry 3). -/
def Obligations.ResetStateRuns : Prop := Running State.reset ∧ State.reset.trace = []

/-! ### The decoder -/

/-- 40_decoder.md R100 in terms of the 2-bit codes: the next code accepts with -1, the previous one with +1, the same
and the opposite are ignored. -/
def Obligations.TransitionByPhaseCode : Prop :=
  ∀ (p : Phase) (n : Levels),
    (phaseCode (phaseOf n) = phaseCode p + 1 → transition p n = (true, phaseOf n, -1)) ∧
    (phaseCode (phaseOf n) = phaseCode p - 1 → transition p n = (true, phaseOf n, 1)) ∧
    (phaseCode (phaseOf n) = phaseCode p → transition p n = (false, p, 0)) ∧
    (phaseCode (phaseOf n) = phaseCode p + 2 → transition p n = (false, p, 0))

/-- 40_decoder.md R101: the whole effect of EDGE c, l; and its corner cases: a level equal to the channel's stored
level changes nothing, and from a state whose channel bits are its phase's pair an EDGE never meets a both-bits
entry. -/
def Obligations.EdgeResult : Prop :=
  (∀ (s : State) (c : Channel) (l : Bool), Running s →
    let n : Levels := if c = .A then (l, s.chB) else (s.chA, l)
    exec (.edge c l) s = .next (
      if (transition s.phase n).1 = true then
        { s with
          phase := (transition s.phase n).2.1
          chA := n.1
          chB := n.2
          cnt := wrapInt s.build.cntW (s.cnt + (transition s.phase n).2.2) }
      else s)) ∧
  (∀ (s : State) (c : Channel), Running s → storedPair s = pairOf s.phase →
    exec (.edge c (if c = .A then s.chA else s.chB)) s = .next s) ∧
  (∀ (s : State) (c : Channel) (l : Bool), storedPair s = pairOf s.phase →
    phaseCode (phaseOf (if c = .A then (l, s.chB) else (s.chA, l))) ≠ phaseCode s.phase + 2)

/-- 40_decoder.md R102: the whole effect of PAIR a, b; and its corner cases: an opposite pair and the phase's own pair
change nothing, and an adjacent pair has the effect of the EDGE that changes that one bit. -/
def Obligations.PairResult : Prop :=
  (∀ (s : State) (a b : Bool), Running s →
    exec (.pair a b) s = .next (
      if (transition s.phase (a, b)).1 = true then
        { s with
          phase := (transition s.phase (a, b)).2.1
          chA := a
          chB := b
          cnt := wrapInt s.build.cntW (s.cnt + (transition s.phase (a, b)).2.2) }
      else s)) ∧
  (∀ (s : State) (a b : Bool), Running s →
    ((a, b) = pairOf s.phase ∨ phaseCode (phaseOf (a, b)) = phaseCode s.phase + 2) →
      exec (.pair a b) s = .next s) ∧
  (∀ (s : State) (l : Bool), storedPair s = pairOf s.phase →
    exec (.pair l s.chB) s = exec (.edge .A l) s ∧ exec (.pair s.chA l) s = exec (.edge .B l) s)

/-- 40_decoder.md R103, R104: a decoder event either changes no state at all, or moves to an adjacent phase, stores
that phase's pair and changes CNT by exactly one, wrapped; CTL's elements, OUT, the marks and the arguments of the step
keep their values in both cases. -/
def Obligations.DecoderEventCountsOneOrNothing : Prop :=
  ∀ (i : Instr) (s t : State), isDecoderEvent i = true → exec i s = .next t →
    t = s ∨
    (storedPair t = pairOf t.phase ∧
      ((phaseCode t.phase = phaseCode s.phase + 1 ∧ t.cnt = wrapInt s.build.cntW (s.cnt - 1)) ∨
        (phaseCode t.phase = phaseCode s.phase - 1 ∧ t.cnt = wrapInt s.build.cntW (s.cnt + 1))) ∧
      sameControl s t ∧ sameMarks s t ∧ sameArguments s t ∧ t.resetSeen = s.resetSeen)

/-- 40_decoder.md R106: an event followed by its inverse event restores the state, PHASE and CNT among it. -/
def Obligations.InverseEventRestores : Prop :=
  ∀ s : State, Running s → storedPair s = pairOf s.phase → inIntN s.build.cntW s.cnt = true →
    (∀ c l t, exec (.edge c l) s = .next t → exec (.edge c (if c = .A then s.chA else s.chB)) t = .next s) ∧
    (∀ a b t, exec (.pair a b) s = .next t → exec (.pair s.chA s.chB) t = .next s)

/-- 30_encoding.md R80: the words of the pseudo-events, and what the two cycles do from S1: back to S1 with 4 counted
down or up. -/
def Obligations.CyclesCountFour : Prop :=
  encodeTrace cycleDec = [0x11, 0x13, 0x10, 0x12] ∧ encodeTrace cycleInc = [0x13, 0x11, 0x12, 0x10] ∧
  (∀ n, encodeTrace (ticks n) = List.replicate n 0x30) ∧
  ∀ s : State, Running s → s.phase = .S1 → storedPair s = pairOf s.phase →
    runEvents cycleDec s = some { s with cnt := wrapInt s.build.cntW (s.cnt - 4) } ∧
    runEvents cycleInc s = some { s with cnt := wrapInt s.build.cntW (s.cnt + 4) }

/-- 40_decoder.md R106, for any walk of decoder events: CNT moves by the sum D of the accepted deltas, modulo 2^CNT_W;
the phase's code moves by -D modulo 4; so a closed walk adds -4 * k for its net number k of turns. -/
def Obligations.WalkCountsItsTurns : Prop :=
  ∀ (is : List Instr) (s t : State), (∀ i ∈ is, isDecoderEvent i = true) → Running s →
    inIntN s.build.cntW s.cnt = true → runEvents is s = some t →
    t.cnt = wrapInt s.build.cntW (s.cnt + sumEvents eventDelta is s) ∧
    (((phaseCode t.phase).toNat : Int) - (phaseCode s.phase).toNat + sumEvents eventDelta is s) % 4 = 0 ∧
    (t.phase = s.phase → ∃ k : Int, sumEvents eventDelta is s = -4 * k)

/-! ### The counter -/

/-- 00_scope.md R12 and 43_counter_sync.md R171: `wrap_N(x)` is the one value of intN that is congruent to x modulo
2^N; at the two ends of its range CNT wraps to the other end. -/
def Obligations.WrapIsTheCongruentValue : Prop :=
  (∀ (n : Nat) (x y : Int), 1 ≤ n → (y = wrapInt n x ↔ inIntN n y = true ∧ (y - x) % 2 ^ n = 0)) ∧
  (∀ s : State, 1 ≤ s.build.cntW → s.cnt = 2 ^ (s.build.cntW - 1) - 1 →
    (atomicAdd 1 s).cnt = -(2 ^ (s.build.cntW - 1))) ∧
  (∀ s : State, 1 ≤ s.build.cntW → s.cnt = -(2 ^ (s.build.cntW - 1)) →
    (atomicAdd (-1) s).cnt = 2 ^ (s.build.cntW - 1) - 1)

/-- 43_counter_sync.md R174, the conservation law: over any run without RESET, what the takes returned plus CNT now
equals CNT at the start (0 after RESET) plus every accepted delta, modulo 2^CNT_W. -/
def Obligations.CountsAreConserved : Prop :=
  ∀ (is : List Instr) (s t : State), Instr.reset ∉ is → runEvents is s = some t →
    (sumEvents eventTake is s + t.cnt) % 2 ^ s.build.cntW =
      (s.cnt + sumEvents eventDelta is s) % 2 ^ s.build.cntW

/-! ### TICK -/

/-- 41_sample_clock.md R122, R127 and 42_controller.md R150: the whole of one control iteration, in its three outcomes.
The values are those of the pseudocode, one rounding per operator in the written order; the duty of step 5 and the
records of steps 5 and 6 stand in OUT. -/
def Obligations.TickResult : Prop :=
  ∀ s : State, Running s →
    let f := s.build.numFmt
    let v := mulVal f (intToNum f s.cnt) (kVel s.build)
    let e := subVal f (numVal s.build.sp) v
    let uRaw := subVal f
      (addVal f (mulVal f (numVal s.build.b0) e) (mulVal f (numVal s.build.b1) (numVal s.ePrev)))
      (mulVal f (numVal s.build.a1) (numVal s.uPrev))
    let u := sat s.build uRaw
    let db := nonneg u != nonneg (numVal s.uPrev)
    let uAct := if db then posZero else u
    let dir := if nonneg u then Dir.forward else Dir.reverse
    let duty := clip01 f (divVal f (absVal uAct) (numVal s.build.vMax))
    let anyNaN := isNaN v || isNaN e || isNaN uRaw
    let sec := s.wakeSec.toNat + (s.wakeNsec.toNat + s.build.periodNs) / 10 ^ 9
    let nsec := (s.wakeNsec.toNat + s.build.periodNs) % 10 ^ 9
    let done : State := { s with
      cnt := 0
      ePrev := numOf f e
      uPrev := numOf f u
      out := s.out ++ [.act dir (numOf f duty), .smp s.wakeSec s.wakeNsec (numOf f v) (numOf f u)] }
    (anyNaN = true → exec .tick s = .next { s with cnt := 0, faulted := some .numericNaN }) ∧
    (anyNaN = false → 2 ^ 64 ≤ sec → exec .tick s = .next { done with faulted := some .wakeOverflow }) ∧
    (anyNaN = false → sec < 2 ^ 64 →
      exec .tick s = .next { done with wakeSec := BitVec.ofNat 64 sec, wakeNsec := BitVec.ofNat 64 nsec })

/-- What a TICK leaves unchanged whichever of its outcomes it has: the decoder's state, the build and the input,
REFUSED; CNT is taken; OUT keeps every record it had (41_sample_clock.md R122, 20_memory.md R51). -/
def Obligations.TickFrame : Prop :=
  ∀ s t : State, exec .tick s = .next t →
    sameDecoder s t ∧ sameArguments s t ∧ t.refused = s.refused ∧ t.resetSeen = s.resetSeen ∧ t.cnt = 0 ∧
    (∃ rs, t.out = s.out ++ rs) ∧
    (t.faulted = none ∨
      (t.faulted = some .numericNaN ∧ sameControl s t) ∨
      (t.faulted = some .wakeOverflow ∧ t.wakeSec = s.wakeSec ∧ t.wakeNsec = s.wakeNsec))

/-- What a RESET leaves unchanged: OUT, both marks, the build and the input (70_reset_and_hazards.md R230). -/
def Obligations.ResetFrame : Prop :=
  ∀ s t : State, exec .reset s = .next t → t.out = s.out ∧ sameMarks s t ∧ sameArguments s t

/-- 41_sample_clock.md R123: the advance adds exactly one period to the deadline and leaves no sub-second overflow;
below one second it is one conditional carry. -/
def Obligations.AdvanceAddsOnePeriod : Prop :=
  ∀ s t : State, exec .tick s = .next t → t.faulted = none →
    deadline t = deadline s + s.build.periodNs ∧ t.wakeNsec.toNat < 10 ^ 9 ∧
    (s.build.periodNs < 10 ^ 9 → s.wakeNsec.toNat < 10 ^ 9 →
      (s.wakeNsec.toNat + s.build.periodNs < 10 ^ 9 ∧ t.wakeSec = s.wakeSec ∧
        t.wakeNsec.toNat = s.wakeNsec.toNat + s.build.periodNs) ∨
      (10 ^ 9 ≤ s.wakeNsec.toNat + s.build.periodNs ∧ t.wakeSec.toNat = s.wakeSec.toNat + 1 ∧
        t.wakeNsec.toNat = s.wakeNsec.toNat + s.build.periodNs - 10 ^ 9))

/-- 41_sample_clock.md R124, the drift-free law: after any events with i TICKs among them, the deadline is the first
deadline plus i periods exactly, whatever lies between; from RESET the first deadline is T0. -/
def Obligations.DeadlinesDoNotDrift : Prop :=
  (∀ (is : List Instr) (s t : State), Instr.reset ∉ is → runEvents is s = some t → t.faulted = none →
    deadline t = deadline s + countTicks is * s.build.periodNs) ∧
  (∀ (is : List Instr) (s r t : State), Instr.reset ∉ is → exec .reset s = .next r → runEvents is r = some t →
    t.faulted = none →
    deadline t = s.build.t0Sec.toNat * 10 ^ 9 + s.build.t0Nsec + countTicks is * s.build.periodNs)

/-- 41_sample_clock.md R121, R125: the wait returns exactly when now >= D; after an overrun by a whole period it
returns at once for the next iteration too. -/
def Obligations.OverrunWaitReturnsAtOnce : Prop :=
  (∀ now s, waitReturns now s = true ↔ s.wakeSec.toNat * 10 ^ 9 + s.wakeNsec.toNat ≤ now) ∧
  ∀ (now : Nat) (s t : State), exec .tick s = .next t → t.faulted = none →
    deadline s + s.build.periodNs ≤ now → waitReturns now s = true ∧ waitReturns now t = true

/-- 20_memory.md R61, 10_state.md R28: no step removes or changes a record of OUT; a step appends either nothing or,
a TICK only, one ACT and then one SMP that carries the deadline just served. -/
def Obligations.OutIsAppendOnly : Prop :=
  ∀ s t : State, step s = .next t →
    t.out = s.out ∨
    ((∃ rest, s.trace = 0x30 :: rest) ∧
      ∃ dir duty v u, t.out = s.out ++ [.act dir duty, .smp s.wakeSec s.wakeNsec v u])

/-- 41_sample_clock.md R122 (why one step is enough), 20_memory.md R51: a TICK neither reads nor writes DEC's own
state, and a decoder event neither reads nor writes CTL's: changing the other agent's elements before the event or
after it is the same. -/
def Obligations.AgentsMeetOnlyInCnt : Prop :=
  (∀ (s t : State) (p : Phase) (n : Levels), exec .tick s = .next t →
    exec .tick { s with phase := p, chA := n.1, chB := n.2 } = .next { t with phase := p, chA := n.1, chB := n.2 }) ∧
  (∀ (i : Instr) (s t : State) (sec nsec : Word64) (e u : NumBits) (o : List Record),
    isDecoderEvent i = true → exec i s = .next t →
    exec i { s with wakeSec := sec, wakeNsec := nsec, ePrev := e, uPrev := u, out := o } =
      .next { t with wakeSec := sec, wakeNsec := nsec, ePrev := e, uPrev := u, out := o })

/-! ### The controller -/

/-- 42_controller.md R143: saturation clamps every number to [-V_MAX, V_MAX], infinities among them, keeps what is
within, and keeps the sign class. -/
def Obligations.SaturationClamps : Prop :=
  ∀ (b : Build) (x : NumVal), buildValid b = true → isNaN x = false →
    (gtVal x (numVal b.vMax) = true → sat b x = numVal b.vMax) ∧
    (ltVal x (negVal (numVal b.vMax)) = true → sat b x = negVal (numVal b.vMax)) ∧
    (within (negVal (numVal b.vMax)) (numVal b.vMax) x = true → sat b x = x) ∧
    within (negVal (numVal b.vMax)) (numVal b.vMax) (sat b x) = true ∧
    nonneg (sat b x) = nonneg x

/-- 42_controller.md R151: the laws of an iteration without NaN: the saturated u is within the limit, duty is in
[0, 1], the deadband gives +0.0 and otherwise the clip changes nothing, the direction is the sign class of u even
then, and the history does not depend on the deadband. -/
def Obligations.ControllerLaws : Prop :=
  ∀ s : State, Running s → NoNaN s → WakeFits s →
    let it := iterationOf s
    (∃ t, exec .tick s = .next t ∧ numVal t.uPrev = it.u ∧ numVal t.ePrev = it.e) ∧
    within (negVal (numVal s.build.vMax)) (numVal s.build.vMax) it.u = true ∧
    within posZero (oneVal s.build.numFmt) it.duty = true ∧
    (nonneg it.u ≠ nonneg (numVal s.uPrev) → it.duty = posZero) ∧
    (nonneg it.u = nonneg (numVal s.uPrev) →
      it.duty = divVal s.build.numFmt (absVal it.u) (numVal s.build.vMax)) ∧
    (it.dir = .forward ↔ geVal it.u posZero = true)

/-- 42_controller.md R145: the deadband lasts one cycle. After a TICK the previous value has this cycle's sign class,
so the next iteration, whatever decoder events are performed before it, is deadbanded exactly when its u changes sign
class once more; and the first iteration after RESET, whatever edges came before it, exactly when its u is negative. -/
def Obligations.DeadbandLastsOneCycle : Prop :=
  (∀ (s t t' : State) (ds : List Instr), exec .tick s = .next t → t.faulted = none →
    (∀ i ∈ ds, isDecoderEvent i = true) → runEvents ds t = some t' →
    ((iterationOf t').db = true ↔ nonneg (iterationOf t').u ≠ nonneg (iterationOf s).u)) ∧
  (∀ (s t t' : State) (ds : List Instr), exec .reset s = .next t →
    (∀ i ∈ ds, isDecoderEvent i = true) → runEvents ds t = some t' →
    ((iterationOf t').db = true ↔ nonneg (iterationOf t').u = false))

/-- 42_controller.md R140: the conversion of the delta is exact up to 2^24 or 2^53, and no accepted edge gives the
velocity +0.0. -/
def Obligations.VelocityOfSmallDeltas : Prop :=
  (∀ (f : NumFmt) (n : Int), n.natAbs ≤ 2 ^ fmtPrec f →
    intToNum f n = .fin (decide (n < 0)) (n.natAbs * 2 ^ fmtUnitExp f)) ∧
  (∀ b : Build, buildValid b = true → velocity b 0 = posZero)

/-- 42_controller.md R142, its corner case: with A1 = -1.0 the product A1 * U_PREV is exactly -U_PREV, a zero's sign
included. -/
def Obligations.MinusOneNegatesExactly : Prop :=
  ∀ x : NumBits, numFmtOf x = .binary32 → isFinite (numVal x) = true →
    mulVal .binary32 (numVal (.b32 0xBF800000#32)) (numVal x) = negVal (numVal x)

/-- 42_controller.md R150, its last case: with the default parameters and any CPR and T0, from a good state with a
small E_PREV no event meets a NaN or an infinity, and the state it leaves is again such a state. -/
def Obligations.DefaultBuildStaysFinite : Prop :=
  ∀ (i : Instr) (s t : State), defaultParameters s.build → Good s → SmallError s → exec i s = .next t →
    isFinite (iterationOf s).v = true ∧ isFinite (iterationOf s).e = true ∧ isFinite (iterationOf s).uRaw = true ∧
    t.faulted ≠ some .numericNaN ∧ SmallError t

/-- The worked scenario of the source with the default parameters, any CPR and T0: after RESET and with no edge, TICK
emits ACT(0, 0x3D94F537) and SMP(T0.sec, T0.nsec, +0.0, 0x3EDF6FD2) (95_test_vectors.md V-L1-7; 41_sample_clock.md R122,
its example). -/
def Obligations.FirstTickScenario : Prop :=
  ∀ (cpr : Nat) (sec : Word64) (nsec : Nat) (e : Endian),
    let b := Config.defaultBuildWith cpr sec nsec e
    buildValid b = true →
    (iterationOf (State.resetOf b)).v = posZero ∧
    ∃ t, exec .tick (State.resetOf b) = .next t ∧
      t.out = [.act .forward (.b32 0x3D94F537#32),
        .smp sec (BitVec.ofNat 64 nsec) (.b32 0x00000000#32) (.b32 0x3EDF6FD2#32)] ∧
      t.ePrev = .b32 0x42A00000#32 ∧ t.uPrev = .b32 0x3EDF6FD2#32

/-! ### Numbers -/

/-- 00_scope.md R13: `roundMag`, which rounds the magnitude of `fl`, rounds to nearest with ties to even: no magnitude
of the format's precision is nearer than the rounded one, and when another is as near, the rounded one's significand is
even. -/
def Obligations.RoundingIsNearestEven : Prop :=
  ∀ (f : NumFmt) (num den m : Nat), 0 < den → m % 2 ^ dropBits f m = 0 →
    let r := roundMag f num den
    r % 2 ^ dropBits f r = 0 ∧
    ((num : Int) - r * den).natAbs ≤ ((num : Int) - m * den).natAbs ∧
    (((num : Int) - r * den).natAbs = ((num : Int) - m * den).natAbs → m ≠ r →
      r / 2 ^ dropBits f (num / den) % 2 = 0)

/-- 00_scope.md R13, R9: every operator on finite values is the exact result rounded once, to nearest with ties to even:
`fl` itself, +, -, *, /, the conversion of an integer, and the quotient of a build's constants. (Which results are
beyond the largest finite value, and so infinite, is IEEE 754's: log entry 8.) -/
def Obligations.OperatorsRoundTheExactResultOnce : Prop :=
  ∀ f : NumFmt,
    (∀ (neg : Bool) (num den : Nat), 0 < den → IsFl f (exactVal f neg num / den) (flVal f neg num den)) ∧
    (∀ sa ma sb mb, IsFl f (exactVal f sa ma + exactVal f sb mb) (addVal f (.fin sa ma) (.fin sb mb))) ∧
    (∀ sa ma sb mb, IsFl f (exactVal f sa ma - exactVal f sb mb) (subVal f (.fin sa ma) (.fin sb mb))) ∧
    (∀ sa ma sb mb, IsFl f (exactVal f sa ma * exactVal f sb mb) (mulVal f (.fin sa ma) (.fin sb mb))) ∧
    (∀ sa ma sb mb, 0 < mb → IsFl f (exactVal f sa ma / exactVal f sb mb) (divVal f (.fin sa ma) (.fin sb mb))) ∧
    (∀ n : Int, IsFl f n (intToNum f n)) ∧
    (∀ p q : Nat, 0 < q → IsFl f ((p : ℚ) / q) (ratioToNum f p q))

/-- The cases that 00_scope.md R13 leaves to IEEE 754, which decision D12 names (the model's, log entry 8): the sign of
a zero result, an operation on a NaN, and operations on infinities and on a zero divisor. -/
def Obligations.SpecialOperandsFollowIeee : Prop :=
  ∀ f : NumFmt,
    (∀ s m, addVal f (.fin s m) (.fin (!s) m) = .fin false 0 ∧ subVal f (.fin s m) (.fin s m) = .fin false 0 ∧
      addVal f (.fin s 0) (.fin s 0) = .fin s 0 ∧ subVal f (.fin s 0) (.fin (!s) 0) = .fin s 0) ∧
    (∀ sa sb m, mulVal f (.fin sa 0) (.fin sb m) = .fin (sa != sb) 0 ∧
      mulVal f (.fin sa m) (.fin sb 0) = .fin (sa != sb) 0 ∧
      (0 < m → divVal f (.fin sa 0) (.fin sb m) = .fin (sa != sb) 0)) ∧
    (∀ x, addVal f .nan x = .nan ∧ addVal f x .nan = .nan ∧ subVal f .nan x = .nan ∧ subVal f x .nan = .nan ∧
      mulVal f .nan x = .nan ∧ mulVal f x .nan = .nan ∧ divVal f .nan x = .nan ∧ divVal f x .nan = .nan) ∧
    (∀ s sb m, addVal f (.inf s) (.fin sb m) = .inf s ∧ addVal f (.fin sb m) (.inf s) = .inf s ∧
      subVal f (.inf s) (.fin sb m) = .inf s ∧ subVal f (.fin sb m) (.inf s) = .inf (!s) ∧
      addVal f (.inf s) (.inf s) = .inf s ∧ subVal f (.inf s) (.inf (!s)) = .inf s ∧
      addVal f (.inf s) (.inf (!s)) = .nan ∧ subVal f (.inf s) (.inf s) = .nan) ∧
    (∀ sa sb m, 0 < m → mulVal f (.inf sa) (.fin sb m) = .inf (sa != sb) ∧
      mulVal f (.fin sb m) (.inf sa) = .inf (sb != sa) ∧
      divVal f (.fin sb m) (.fin sa 0) = .inf (sb != sa)) ∧
    (∀ sa sb m, mulVal f (.inf sa) (.inf sb) = .inf (sa != sb) ∧ mulVal f (.inf sa) (.fin sb 0) = .nan ∧
      mulVal f (.fin sb 0) (.inf sa) = .nan ∧ divVal f (.fin sa 0) (.fin sb 0) = .nan ∧
      divVal f (.inf sa) (.inf sb) = .nan ∧ divVal f (.inf sa) (.fin sb m) = .inf (sa != sb) ∧
      divVal f (.fin sa m) (.inf sb) = .fin (sa != sb) 0)

/-- A NUM pattern that is no NaN is the pattern of the value it stands for, and every result of an operator is a value
the format has a pattern for (00_scope.md R13, 10_state.md R34). -/
def Obligations.NumPatternsRoundTrip : Prop :=
  (∀ x : NumBits, isNaN (numVal x) = false → numOf (numFmtOf x) (numVal x) = x) ∧
  (∀ f a b, numVal (numOf f (addVal f a b)) = addVal f a b ∧ numVal (numOf f (subVal f a b)) = subVal f a b ∧
    numVal (numOf f (mulVal f a b)) = mulVal f a b ∧ numVal (numOf f (divVal f a b)) = divVal f a b)

/-- 00_scope.md R13 and 42_controller.md R144: every comparison with a NaN is false; finite values compare as the
numbers they are, both zeros equal; an infinity lies beyond every finite value on its side; a > b is b < a, and of two
numbers exactly one of a < b and a >= b holds; non-negative are both zeros and every value that is not below them. -/
def Obligations.ComparisonsAreIeee : Prop :=
  (∀ x, ltVal .nan x = false ∧ ltVal x .nan = false ∧ gtVal .nan x = false ∧ gtVal x .nan = false ∧
    geVal .nan x = false ∧ geVal x .nan = false) ∧
  (∀ sa ma sb mb, ltVal (.fin sa ma) (.fin sb mb) = true ↔
    (if sa then -(ma : Int) else (ma : Int)) < (if sb then -(mb : Int) else (mb : Int))) ∧
  (∀ s m, ltVal (.inf true) (.fin s m) = true ∧ ltVal (.fin s m) (.inf false) = true ∧
    ltVal (.fin s m) (.inf true) = false ∧ ltVal (.inf false) (.fin s m) = false) ∧
  (∀ sa sb, ltVal (.inf sa) (.inf sb) = true ↔ sa = true ∧ sb = false) ∧
  (∀ a b, gtVal a b = ltVal b a) ∧
  (∀ a b, isNaN a = false → isNaN b = false → (geVal a b = true ↔ ltVal a b = false)) ∧
  (∀ neg m, nonneg (.fin neg m) = true ↔ neg = false ∨ m = 0) ∧
  (∀ neg, nonneg (.inf neg) = true ↔ neg = false)

/-- 00_scope.md R8: the default patterns are the decimal literals of the source rounded to nearest-even binary32. -/
def Obligations.DefaultPatternsAreRoundedLiterals : Prop :=
  numOf .binary32 (ratioToNum .binary32 80 1) = .b32 0x42A00000#32 ∧
  numOf .binary32 (ratioToNum .binary32 5455 1000000) = .b32 0x3BB2BFDB#32 ∧
  numOf .binary32 (ratioToNum .binary32 3455 1000000) = .b32 0x3B626D48#32 ∧
  numOf .binary32 (negVal (ratioToNum .binary32 1 1)) = .b32 0xBF800000#32 ∧
  numOf .binary32 (ratioToNum .binary32 6 1) = .b32 0x40C00000#32

/-! ### Invariants -/

/-- Every step keeps the invariant: once a RESET has happened, the channel bits are the phase's pair, CNT is an
intCNT_W, WAKE_NSEC is below 10^9, the NUM registers hold patterns of the build's format, E_PREV is no NaN and U_PREV
is within [-V_MAX, V_MAX] (10_state.md R20, R22, R25, R26; 42_controller.md R150, R151). -/
def Obligations.StepKeepsGoodState : Prop :=
  ∀ s t : State, Inv s → step s = .next t → Inv t

/-- The invariant holds after reset, of every valid build, and before the first RESET. -/
def Obligations.GoodAtReset : Prop :=
  Inv State.reset ∧
  (∀ b : Build, buildValid b = true → Good (State.resetOf b)) ∧
  (∀ (b : Build) (t : List EventWord), Inv (State.powerUp b t))

/-- 10_state.md R22: the channel bits are the phase's pair in every state that a run reaches from reset: at reset, and
every event keeps it. -/
def Obligations.ChannelBitsAreThePhasePair : Prop :=
  (∀ b : Build, storedPair (State.resetOf b) = pairOf (State.resetOf b).phase) ∧
  (∀ (is : List Instr) (s t : State), storedPair s = pairOf s.phase → runEvents is s = some t →
    storedPair t = pairOf t.phase)

/-! ### The host's side -/

/-- 43_counter_sync.md R176. Every admitted trace keeps the decoder events of the physical order in their own order and
the TICKs in theirs. Where no RESET is among the events, those two conditions are all that EDGE_SLIP = true asks, and
EDGE_SLIP = false asks besides that no TICK stands before an edge that precedes its deadline (an event's time is its
instant, a TICK's its deadline; at the same instant either order is admitted). So whatever false admits, true admits;
and a physical order whose instants do not fall is admitted as it stands. (How RESETs cut a trace is the model's: log
entry 12.) -/
def Obligations.SlipAdmitsMore : Prop :=
  (∀ (slip : Bool) (phys t : List Timed), admitted slip phys t = true →
    t.filter (fun x => isDecoderEvent x.event) = phys.filter (fun x => isDecoderEvent x.event) ∧
    t.filter (fun x => x.event = .tick) = phys.filter (fun x => x.event = .tick)) ∧
  (∀ (slip : Bool) (phys t : List Timed), (∀ x ∈ phys, x.event ≠ .reset) → (∀ x ∈ t, x.event ≠ .reset) →
    (admitted slip phys t = true ↔
      t.filter (fun x => isDecoderEvent x.event) = phys.filter (fun x => isDecoderEvent x.event) ∧
      t.filter (fun x => x.event = .tick) = phys.filter (fun x => x.event = .tick) ∧
      (slip = false →
        t.Pairwise fun x y => x.event = .tick → isDecoderEvent y.event = true → x.time ≤ y.time))) ∧
  (∀ phys t : List Timed, admitted false phys t = true → admitted true phys t = true) ∧
  (∀ phys : List Timed, phys.Pairwise (fun x y => x.time ≤ y.time) → admitted false phys phys = true)

/-- The model's reading of how RESETs meet R176's relation (log entry 12, after 60_exceptions.md R204: a RESET is one
step between two others): two traces with a RESET are admitted exactly when what stands before their first RESETs is,
and what stands after them is; a trace with a RESET never stands for one without. -/
def Obligations.ResetsCutTheTrace : Prop :=
  ∀ (slip : Bool) (p q phys t : List Timed) (r r' : Timed),
    (∀ x ∈ p, x.event ≠ .reset) → (∀ x ∈ q, x.event ≠ .reset) → r.event = .reset → r'.event = .reset →
    (admitted slip (p ++ r :: phys) (q ++ r' :: t) = true ↔
      admitted slip p q = true ∧ admitted slip phys t = true) ∧
    admitted slip p (q ++ r' :: t) = false ∧ admitted slip (p ++ r :: phys) q = false

/-- 30_encoding.md R79, R80: the text of every event assembles to its one word, and the lines CYCLE_DEC, CYCLE_INC and
`TICKS 12` to their expansions (that the operand of TICKS is decimal: log entry 13). -/
def Obligations.TextAssemblesToItsWord : Prop :=
  (∀ i : Instr, assemble (eventText i) = some [encode i]) ∧
  assembleLine ['C', 'Y', 'C', 'L', 'E', '_', 'D', 'E', 'C'] = some cycleDec ∧
  assembleLine ['C', 'Y', 'C', 'L', 'E', '_', 'I', 'N', 'C'] = some cycleInc ∧
  assembleLine ['T', 'I', 'C', 'K', 'S', ' ', '1', '2'] = some (ticks 12)

/-- 30_encoding.md R80: for every n >= 1 the line `TICKS n` assembles to n copies of TICK, and `TICKS 0` to nothing that
is an event. (The operand in decimal digits after a blank is the model's: log entry 13.) -/
def Obligations.TicksTextExpands : Prop :=
  (∀ n : Nat, 1 ≤ n →
    assembleLine (['T', 'I', 'C', 'K', 'S', ' '] ++ Nat.toDigits 10 n) = some (List.replicate n .tick)) ∧
  assembleLine ['T', 'I', 'C', 'K', 'S', ' ', '0'] = none

/-- 95_test_vectors.md V-L1-8: a serialized sample gives its values back: two samples of one format with the same
bytes are the same sample, in either byte order. -/
def Obligations.TelemetryFrameIsFaithful : Prop :=
  ∀ (e : Endian) (s1 n1 s2 n2 : Word64) (v1 u1 v2 u2 : NumBits),
    numFmtOf v1 = numFmtOf v2 → numFmtOf u1 = numFmtOf u2 →
    telemetryFrame e (.smp s1 n1 v1 u1) = telemetryFrame e (.smp s2 n2 v2 u2) →
    s1 = s2 ∧ n1 = n2 ∧ v1 = v2 ∧ u1 = u2
end

