-- ==== Sys2Proof/Laws/Num.lean ====
section
/-!
SUPPORT. What the arithmetic of NUM gives: lengths of magnitudes, the rounding's bounds, that every result has a
pattern of its format, and that a pattern stands for the value it was made from.
-/

namespace Sys2Proof.Machine

/-! ### Bit lengths -/

theorem bitLength_le_iff (n k : Nat) : bitLength n ≤ k ↔ n < 2 ^ k := by
  unfold bitLength
  split
  · next h => simp [h]
  · next h => rw [Nat.succ_le_iff, Nat.log2_lt h]

theorem lt_bitLength_iff (n k : Nat) : k < bitLength n ↔ 2 ^ k ≤ n := by
  rw [← Nat.not_le, bitLength_le_iff, Nat.not_lt]

theorem lt_two_pow_bitLength (n : Nat) : n < 2 ^ bitLength n := (bitLength_le_iff n _).1 le_rfl

theorem bitLength_mono {a b : Nat} (h : a ≤ b) : bitLength a ≤ bitLength b :=
  (bitLength_le_iff _ _).2 (lt_of_le_of_lt h (lt_two_pow_bitLength b))

theorem two_pow_le_of_pos {n : Nat} (h : 0 < n) : 2 ^ (bitLength n - 1) ≤ n := by
  have hb : 0 < bitLength n := (lt_bitLength_iff n 0).2 (by simpa using Nat.succ_le_of_lt h)
  exact (lt_bitLength_iff n _).1 (by omega)

theorem dropBits_mono (f : NumFmt) {a b : Nat} (h : a ≤ b) : dropBits f a ≤ dropBits f b := by
  unfold dropBits
  have := bitLength_mono h
  omega

theorem fmtPrec_pos (f : NumFmt) : 0 < fmtPrec f := by cases f <;> decide

/-- A magnitude below 2^k drops at most k - p bits. -/
theorem dropBits_le_of_lt (f : NumFmt) {m k : Nat} (h : m < 2 ^ (fmtPrec f + k)) : dropBits f m ≤ k := by
  have := (bitLength_le_iff m _).2 h
  unfold dropBits
  omega

theorem lt_two_pow_prec_dropBits (f : NumFmt) (m : Nat) : m < 2 ^ (fmtPrec f + dropBits f m) := by
  rw [← bitLength_le_iff]
  unfold dropBits
  omega

/-- A magnitude that drops bits fills the format's precision. -/
theorem two_pow_le_of_dropBits_pos (f : NumFmt) {m : Nat} (h : 0 < dropBits f m) :
    2 ^ (fmtPrec f - 1 + dropBits f m) ≤ m := by
  rw [← lt_bitLength_iff]
  unfold dropBits at *
  have := fmtPrec_pos f
  omega

/-! ### Magnitudes of a format -/

/-- The magnitude fits the format's precision (its exponent not bounded above). -/
def fitsPrec (f : NumFmt) (m : Nat) : Prop := 2 ^ dropBits f m ∣ m

theorem representable_fin_iff (f : NumFmt) (neg : Bool) (m : Nat) :
    representable f (.fin neg m) = true ↔ fitsPrec f m ∧ bitLength m ≤ fmtTopExp f := by
  simp [representable, fitsPrec, Nat.dvd_iff_mod_eq_zero]

theorem fitsPrec_of_lt (f : NumFmt) {m : Nat} (h : m < 2 ^ fmtPrec f) : fitsPrec f m := by
  have : dropBits f m ≤ 0 := dropBits_le_of_lt f (by simpa using h)
  simp [fitsPrec, Nat.le_zero.1 this]

theorem fitsPrec_shift (f : NumFmt) {n k : Nat} (h : n ≤ 2 ^ fmtPrec f) : fitsPrec f (n * 2 ^ k) := by
  rcases Nat.lt_or_eq_of_le h with h | h
  · have hd : dropBits f (n * 2 ^ k) ≤ k := dropBits_le_of_lt f (by rw [pow_add]; exact Nat.mul_lt_mul_of_pos_right h (by positivity))
    exact Dvd.dvd.mul_left (pow_dvd_pow 2 hd) n
  · have hd : dropBits f (n * 2 ^ k) ≤ k + 1 :=
      dropBits_le_of_lt f (by rw [h, ← pow_add]; exact Nat.pow_lt_pow_right (by omega) (by omega))
    have hp := fmtPrec_pos f
    unfold fitsPrec
    rw [h, ← pow_add] at *
    exact pow_dvd_pow 2 (by omega)

theorem fitsPrec_two_pow (f : NumFmt) (k : Nat) : fitsPrec f (2 ^ k) := by
  simpa using fitsPrec_shift f (n := 1) (k := k) (Nat.one_le_two_pow)

/-! ### Rounding -/

theorem roundDiv_bounds (num den : Nat) : num / den ≤ roundDiv num den ∧ roundDiv num den ≤ num / den + 1 := by
  unfold roundDiv
  split_ifs <;> omega

theorem roundDiv_le {num den b : Nat} (hd : 0 < den) (h : num ≤ b * den) : roundDiv num den ≤ b := by
  have hdm := Nat.div_add_mod num den
  have hlt := Nat.mod_lt num hd
  by_cases hq : num / den < b
  · have := (roundDiv_bounds num den).2
    omega
  · have hge : b ≤ num / den := Nat.le_of_not_lt hq
    have h1 : b * den ≤ num / den * den := Nat.mul_le_mul_right _ hge
    have h2 : den * (num / den) = num / den * den := Nat.mul_comm _ _
    have hr : num % den = 0 := by omega
    have hle : num / den ≤ b := by
      have : num / den * den ≤ b * den := by omega
      exact Nat.le_of_mul_le_mul_right this hd
    unfold roundDiv
    rw [hr]
    simp [hd, hle]

theorem le_roundDiv {num den b : Nat} (hd : 0 < den) (h : b * den ≤ num) : b ≤ roundDiv num den :=
  le_trans ((Nat.le_div_iff_mul_le hd).2 h) (roundDiv_bounds num den).1

theorem roundDiv_mul (b : Nat) {den : Nat} (hd : 0 < den) : roundDiv (b * den) den = b :=
  le_antisymm (roundDiv_le hd le_rfl) (le_roundDiv hd le_rfl)

theorem div_mul_two_pow (num den k : Nat) : num / (den * 2 ^ k) = num / den / 2 ^ k := (Nat.div_div_eq_div_mul _ _ _).symm

/-- The rounded significand is at most 2^p. -/
theorem roundMag_significand_le (f : NumFmt) (num den : Nat) :
    roundDiv num (den * 2 ^ dropBits f (num / den)) ≤ 2 ^ fmtPrec f := by
  refine le_trans (roundDiv_bounds _ _).2 ?_
  rw [div_mul_two_pow]
  have h := lt_two_pow_prec_dropBits f (num / den)
  rw [pow_add, Nat.mul_comm] at h
  exact Nat.succ_le_of_lt (Nat.div_lt_of_lt_mul h)

theorem roundMag_fits (f : NumFmt) (num den : Nat) : fitsPrec f (roundMag f num den) :=
  fitsPrec_shift f (roundMag_significand_le f num den)

/-- A rounded magnitude does not pass a magnitude of the format from below. -/
theorem roundMag_le (f : NumFmt) {num den b : Nat} (hd : 0 < den) (hb : fitsPrec f b) (h : num ≤ b * den) :
    roundMag f num den ≤ b := by
  have hq : num / den ≤ b := Nat.div_le_of_le_mul (by rwa [Nat.mul_comm])
  obtain ⟨c, hc⟩ := Dvd.dvd.trans (pow_dvd_pow 2 (dropBits_mono f hq)) hb
  have hD : 0 < den * 2 ^ dropBits f (num / den) := by positivity
  have : roundDiv num (den * 2 ^ dropBits f (num / den)) ≤ c := roundDiv_le hD (by
    calc num ≤ b * den := h
      _ = c * (den * 2 ^ dropBits f (num / den)) := by rw [hc]; ring)
  calc roundMag f num den ≤ c * 2 ^ dropBits f (num / den) := Nat.mul_le_mul_right _ this
    _ = b := by rw [Nat.mul_comm]; exact hc.symm

/-- A rounded magnitude does not pass a magnitude of the format from above. -/
theorem le_roundMag (f : NumFmt) {num den b : Nat} (hd : 0 < den) (hb : fitsPrec f b) (h : b * den ≤ num) :
    b ≤ roundMag f num den := by
  have hq : b ≤ num / den := (Nat.le_div_iff_mul_le hd).2 h
  have hD : 0 < den * 2 ^ dropBits f (num / den) := by positivity
  rcases Nat.lt_or_eq_of_le (dropBits_mono f hq) with hlt | heq
  · have hpos : 0 < dropBits f (num / den) := by omega
    have hbig := two_pow_le_of_dropBits_pos f hpos
    have hp := fmtPrec_pos f
    have h1 : b < 2 ^ (fmtPrec f + dropBits f b) := lt_two_pow_prec_dropBits f b
    have h2 : b ≤ 2 ^ (fmtPrec f - 1) * 2 ^ dropBits f (num / den) := by
      rw [← pow_add]
      exact le_trans (le_of_lt h1) (Nat.pow_le_pow_right (by omega) (by omega))
    refine le_trans h2 (Nat.mul_le_mul_right _ (le_roundDiv hD ?_))
    have := (Nat.le_div_iff_mul_le hd).1 hbig
    calc 2 ^ (fmtPrec f - 1) * (den * 2 ^ dropBits f (num / den))
        = 2 ^ (fmtPrec f - 1 + dropBits f (num / den)) * den := by rw [pow_add]; ring
      _ ≤ num := this
  · obtain ⟨c, hc⟩ := hb
    rw [heq] at hc
    have : c ≤ roundDiv num (den * 2 ^ dropBits f (num / den)) := le_roundDiv hD (by
      calc c * (den * 2 ^ dropBits f (num / den)) = 2 ^ dropBits f (num / den) * c * den := by ring
        _ = b * den := by rw [← hc]
        _ ≤ num := h)
    calc b = c * 2 ^ dropBits f (num / den) := by rw [Nat.mul_comm]; exact hc
      _ ≤ roundMag f num den := Nat.mul_le_mul_right _ this

/-- A magnitude of the format is rounded to itself. -/
theorem roundMag_exact (f : NumFmt) {m den : Nat} (hd : 0 < den) (hm : fitsPrec f m) : roundMag f (m * den) den = m :=
  le_antisymm (roundMag_le f hd hm le_rfl) (le_roundMag f hd hm le_rfl)

/-! ### Every result has a pattern -/

theorem flVal_cases (f : NumFmt) (neg : Bool) (num den : Nat) :
    (flVal f neg num den = .fin neg (roundMag f num den) ∧ bitLength (roundMag f num den) ≤ fmtTopExp f) ∨
    (flVal f neg num den = .inf neg ∧ fmtTopExp f < bitLength (roundMag f num den)) := by
  unfold flVal
  split
  · next h => exact .inl ⟨rfl, h⟩
  · next h => exact .inr ⟨rfl, by omega⟩

theorem isNaN_flVal (f : NumFmt) (neg : Bool) (num den : Nat) : isNaN (flVal f neg num den) = false := by
  rcases flVal_cases f neg num den with ⟨h, _⟩ | ⟨h, _⟩ <;> rw [h] <;> rfl

theorem flVal_representable (f : NumFmt) (neg : Bool) (num den : Nat) : representable f (flVal f neg num den) = true := by
  rcases flVal_cases f neg num den with ⟨h, hb⟩ | ⟨h, _⟩ <;> rw [h]
  · exact (representable_fin_iff _ _ _).2 ⟨roundMag_fits f num den, hb⟩
  · rfl

/-- `fl` of a value of the format is that value (00_scope.md R13). -/
theorem flVal_exact (f : NumFmt) (neg : Bool) {m den : Nat} (hd : 0 < den) (h : representable f (.fin neg m) = true) :
    flVal f neg (m * den) den = .fin neg m := by
  obtain ⟨hm, hb⟩ := (representable_fin_iff _ _ _).1 h
  unfold flVal
  rw [roundMag_exact f hd hm, if_pos hb]

/-- `fl` does not pass a finite bound of the format. -/
theorem flVal_le (f : NumFmt) (neg : Bool) {num den b : Nat} (hd : 0 < den)
    (hb : representable f (.fin false b) = true) (h : num ≤ b * den) :
    ∃ m, flVal f neg num den = .fin neg m ∧ m ≤ b := by
  obtain ⟨hm, ht⟩ := (representable_fin_iff _ _ _).1 hb
  have hle := roundMag_le f hd hm h
  exact ⟨roundMag f num den, by unfold flVal; rw [if_pos (le_trans (bitLength_mono hle) ht)], hle⟩

theorem representable_zero (f : NumFmt) (neg : Bool) : representable f (.fin neg 0) = true := by cases f <;> cases neg <;> decide

theorem negVal_representable (f : NumFmt) (x : NumVal) (h : representable f x = true) : representable f (negVal x) = true := by
  cases x <;> simp_all [negVal, representable]

theorem absVal_representable (f : NumFmt) (x : NumVal) (h : representable f x = true) : representable f (absVal x) = true := by
  cases x <;> simp_all [absVal, representable]

theorem addVal_representable (f : NumFmt) (x y : NumVal) : representable f (addVal f x y) = true := by
  cases x <;> cases y <;> simp only [addVal, addFin] <;>
    first | rfl | (split <;> first | rfl | exact flVal_representable ..)

theorem subVal_representable (f : NumFmt) (x y : NumVal) : representable f (subVal f x y) = true :=
  addVal_representable f x (negVal y)

theorem mulVal_representable (f : NumFmt) (x y : NumVal) : representable f (mulVal f x y) = true := by
  cases x <;> cases y <;> simp only [mulVal] <;> first | rfl | exact flVal_representable .. | (split <;> rfl)

theorem divVal_representable (f : NumFmt) (x y : NumVal) : representable f (divVal f x y) = true := by
  cases x <;> cases y <;> simp only [divVal] <;>
    first | rfl | exact representable_zero .. | (split_ifs <;> first | rfl | exact flVal_representable ..)

theorem intToNum_representable (f : NumFmt) (n : Int) : representable f (intToNum f n) = true := flVal_representable ..

/-! ### Patterns and values -/

@[simp] theorem numFmtOf_numOf (f : NumFmt) (v : NumVal) : numFmtOf (numOf f v) = f := by cases f <;> rfl

/-- The least number that a format's exponent field does not hold as a finite value's exponent. -/
theorem fmt_fields (f : NumFmt) :
    fmtWidth f - 1 = fmtExpBits f + (fmtPrec f - 1) ∧ fmtTopExp f = fmtPrec f + (2 ^ fmtExpBits f - 3) ∧
    3 ≤ 2 ^ fmtExpBits f := by
  cases f <;> decide

/-- A pattern put together from sign, exponent and fraction is read back as those. -/
theorem valOfBits_fields (f : NumFmt) (neg : Bool) {e r : Nat} (he : e < 2 ^ fmtExpBits f) (hr : r < 2 ^ (fmtPrec f - 1)) :
    valOfBits f ((if neg then 2 ^ (fmtWidth f - 1) else 0) + (e * 2 ^ (fmtPrec f - 1) + r)) =
      if e = 2 ^ fmtExpBits f - 1 then (if r = 0 then .inf neg else .nan)
      else if e = 0 then .fin neg r
      else .fin neg ((2 ^ (fmtPrec f - 1) + r) * 2 ^ (e - 1)) := by
  have hw := (fmt_fields f).1
  generalize hP : 2 ^ (fmtPrec f - 1) = P at *
  generalize hE : 2 ^ fmtExpBits f = E at *
  have hS : 2 ^ (fmtWidth f - 1) = E * P := by rw [hw, pow_add, hE, hP]
  have hPpos : 0 < P := by rw [← hP]; positivity
  have hEpos : 0 < E := by omega
  have hlow : e * P + r < E * P := by nlinarith
  have hfrac : ((if neg then E * P else 0) + (e * P + r)) % P = r := by
    cases neg <;> simp [Nat.add_mod, Nat.mod_eq_of_lt hr]
  have hexp : ((if neg then E * P else 0) + (e * P + r)) / P % E = e := by
    have : ((if neg then E * P else 0) + (e * P + r)) / P = (if neg then E else 0) + e := by
      apply Nat.div_eq_of_lt_le <;> cases neg <;> simp <;> nlinarith
    rw [this]
    cases neg <;> simp [Nat.mod_eq_of_lt he]
  have hneg : ((if neg then E * P else 0) + (e * P + r)).testBit (fmtWidth f - 1) = neg := by
    rw [Nat.testBit_eq_decide_div_mod_eq, hS]
    have : ((if neg then E * P else 0) + (e * P + r)) / (E * P) = if neg then 1 else 0 := by
      apply Nat.div_eq_of_lt_le <;> cases neg <;> simp <;> omega
    rw [this]
    cases neg <;> rfl
  unfold valOfBits
  simp only [hS, hP, hE, hfrac, hexp, hneg]

theorem magBits_eq (f : NumFmt) {m : Nat} (hm : fitsPrec f m) :
    (dropBits f m = 0 ∧ m < 2 ^ (fmtPrec f - 1) ∧ magBits f m = 0 * 2 ^ (fmtPrec f - 1) + m) ∨
    ∃ r, r < 2 ^ (fmtPrec f - 1) ∧ m = (2 ^ (fmtPrec f - 1) + r) * 2 ^ dropBits f m ∧
      magBits f m = (dropBits f m + 1) * 2 ^ (fmtPrec f - 1) + r := by
  obtain ⟨n, hn⟩ := hm
  have hp := fmtPrec_pos f
  have hdiv : m / 2 ^ dropBits f m = n := by
    exact Nat.div_eq_of_eq_mul_right (Nat.two_pow_pos _) hn
  have hlt : n < 2 ^ (fmtPrec f - 1) * 2 := by
    rw [← pow_succ, Nat.sub_add_cancel hp]
    have := lt_two_pow_prec_dropBits f m
    rw [pow_add, Nat.mul_comm] at this
    exact Nat.lt_of_mul_lt_mul_left (a := 2 ^ dropBits f m) (by rwa [← hn])
  unfold magBits
  rw [hdiv]
  by_cases hs : n < 2 ^ (fmtPrec f - 1)
  · left
    have h0 : dropBits f m = 0 := by
      by_contra h
      have h1 := two_pow_le_of_dropBits_pos f (Nat.pos_of_ne_zero h)
      rw [pow_add, Nat.mul_comm] at h1
      have h2 : 2 ^ dropBits f m * 2 ^ (fmtPrec f - 1) ≤ 2 ^ dropBits f m * n := by rwa [← hn]
      exact absurd (Nat.le_of_mul_le_mul_left h2 (Nat.two_pow_pos _)) (by omega)
    rw [h0] at hn ⊢
    exact ⟨rfl, by omega, by omega⟩
  · right
    refine ⟨n - 2 ^ (fmtPrec f - 1), by omega, ?_, ?_⟩
    · rw [Nat.add_sub_cancel' (by omega), Nat.mul_comm]; exact hn
    · rw [Nat.add_mul]; omega

/-- A pattern made from a value of the format is read back as that value. -/
theorem valOfBits_bitsOfVal (f : NumFmt) {v : NumVal} (hv : representable f v = true) :
    valOfBits f (bitsOfVal f v) = v ∧ bitsOfVal f v < 2 ^ fmtWidth f := by
  have hf := fmt_fields f
  have hp : 2 ≤ fmtPrec f := by cases f <;> decide
  have hS : 2 ^ fmtWidth f = 2 * (2 ^ fmtExpBits f * 2 ^ (fmtPrec f - 1)) := by
    rw [← pow_add, ← hf.1, ← pow_succ']; congr 1; cases f <;> rfl
  have hlow : ∀ (neg : Bool) (e r : Nat), e < 2 ^ fmtExpBits f → r < 2 ^ (fmtPrec f - 1) →
      (if neg then 2 ^ (fmtWidth f - 1) else 0) + (e * 2 ^ (fmtPrec f - 1) + r) < 2 ^ fmtWidth f := by
    intro neg e r he hr
    have : 2 ^ (fmtWidth f - 1) = 2 ^ fmtExpBits f * 2 ^ (fmtPrec f - 1) := by rw [hf.1, pow_add]
    rw [hS, this]
    cases neg <;> simp <;> nlinarith
  have hq : 2 ^ (fmtPrec f - 2) < 2 ^ (fmtPrec f - 1) := Nat.pow_lt_pow_right (by omega) (by omega)
  have hz : 0 < 2 ^ (fmtPrec f - 1) := by positivity
  cases v with
  | nan =>
    have h := valOfBits_fields f false (e := 2 ^ fmtExpBits f - 1) (by omega) hq
    have h' := hlow false (2 ^ fmtExpBits f - 1) _ (by omega) hq
    simp only [Bool.false_eq_true, if_false, Nat.zero_add, if_true] at h h'
    exact ⟨by simpa [bitsOfVal] using h, h'⟩
  | inf neg =>
    have h := valOfBits_fields f neg (e := 2 ^ fmtExpBits f - 1) (by omega) hz
    exact ⟨by simpa [bitsOfVal] using h, hlow neg (2 ^ fmtExpBits f - 1) 0 (by omega) hz⟩
  | fin neg m =>
    obtain ⟨hm, ht⟩ := (representable_fin_iff f neg m).1 hv
    simp only [bitsOfVal]
    rcases magBits_eq f hm with ⟨_, hlt, hb⟩ | ⟨r, hr, hmr, hb⟩
    · rw [hb]
      refine ⟨?_, hlow neg 0 m (by omega) hlt⟩
      rw [valOfBits_fields f neg (by omega) hlt, if_neg (by omega), if_pos rfl]
    · have he : dropBits f m + 1 < 2 ^ fmtExpBits f - 1 := by unfold dropBits; omega
      rw [hb]
      refine ⟨?_, hlow neg _ r (by omega) hr⟩
      rw [valOfBits_fields f neg (by omega) hr, if_neg (by omega), if_neg (by omega), Nat.add_sub_cancel, ← hmr]

/-- A NUM register that was written with a value of the format holds that value. -/
theorem numVal_numOf (f : NumFmt) {v : NumVal} (hv : representable f v = true) : numVal (numOf f v) = v := by
  obtain ⟨h, hlt⟩ := valOfBits_bitsOfVal f hv
  cases f
  · show valOfBits .binary32 (bitsOfVal .binary32 v % 2 ^ 32) = v
    rw [Nat.mod_eq_of_lt (show bitsOfVal .binary32 v < 2 ^ 32 from hlt), h]
  · show valOfBits .binary64 (bitsOfVal .binary64 v % 2 ^ 64) = v
    rw [Nat.mod_eq_of_lt (show bitsOfVal .binary64 v < 2 ^ 64 from hlt), h]

/-- What any pattern stands for is a value of its format. -/
theorem valOfBits_representable (f : NumFmt) (n : Nat) : representable f (valOfBits f n) = true := by
  have hf := fmt_fields f
  have hp := fmtPrec_pos f
  have hpow : 2 ^ fmtPrec f = 2 ^ (fmtPrec f - 1) * 2 := by rw [← pow_succ, Nat.sub_add_cancel hp]
  have hr : n % 2 ^ (fmtPrec f - 1) < 2 ^ (fmtPrec f - 1) := Nat.mod_lt _ (by positivity)
  have he : n / 2 ^ (fmtPrec f - 1) % 2 ^ fmtExpBits f < 2 ^ fmtExpBits f := Nat.mod_lt _ (by positivity)
  unfold valOfBits
  simp only
  split_ifs with h1 h2 h3
  · rfl
  · rfl
  · exact (representable_fin_iff _ _ _).2 ⟨fitsPrec_of_lt f (by omega), (bitLength_le_iff _ _).2
      (lt_of_lt_of_le (show _ < 2 ^ fmtPrec f by omega) (Nat.pow_le_pow_right (by omega) (by omega)))⟩
  · refine (representable_fin_iff _ _ _).2 ⟨fitsPrec_shift f (by omega), (bitLength_le_iff _ _).2 ?_⟩
    generalize n / 2 ^ (fmtPrec f - 1) % 2 ^ fmtExpBits f = e at *
    calc (2 ^ (fmtPrec f - 1) + n % 2 ^ (fmtPrec f - 1)) * 2 ^ (e - 1)
        < 2 ^ fmtPrec f * 2 ^ (e - 1) := Nat.mul_lt_mul_of_pos_right (by omega) (by positivity)
      _ = 2 ^ (fmtPrec f + (e - 1)) := by rw [pow_add]
      _ ≤ 2 ^ fmtTopExp f := Nat.pow_le_pow_right (by omega) (by omega)

theorem numVal_representable (x : NumBits) : representable (numFmtOf x) (numVal x) = true := by
  cases x
  · exact valOfBits_representable .binary32 _
  · exact valOfBits_representable .binary64 _

@[simp] theorem numVal_posZero (f : NumFmt) : numVal (numOf f posZero) = posZero :=
  numVal_numOf f (representable_zero f false)

end Sys2Proof.Machine
end

