-- ==== Sys2Proof/Laws/State.lean ====
section
/-!
SUPPORT. One lemma per field per update: what each state operation writes and that it leaves every other element.
-/

namespace Sys2Proof.Machine

@[simp] theorem setDecoder_phase (p : Phase) (n : Levels) (s : State) : (setDecoder p n s).phase = p := rfl
@[simp] theorem setDecoder_chA (p : Phase) (n : Levels) (s : State) : (setDecoder p n s).chA = n.1 := rfl
@[simp] theorem setDecoder_chB (p : Phase) (n : Levels) (s : State) : (setDecoder p n s).chB = n.2 := rfl
@[simp] theorem setDecoder_cnt (p : Phase) (n : Levels) (s : State) : (setDecoder p n s).cnt = s.cnt := rfl
@[simp] theorem setDecoder_wakeSec (p : Phase) (n : Levels) (s : State) : (setDecoder p n s).wakeSec = s.wakeSec := rfl
@[simp] theorem setDecoder_wakeNsec (p : Phase) (n : Levels) (s : State) : (setDecoder p n s).wakeNsec = s.wakeNsec := rfl
@[simp] theorem setDecoder_ePrev (p : Phase) (n : Levels) (s : State) : (setDecoder p n s).ePrev = s.ePrev := rfl
@[simp] theorem setDecoder_uPrev (p : Phase) (n : Levels) (s : State) : (setDecoder p n s).uPrev = s.uPrev := rfl
@[simp] theorem setDecoder_out (p : Phase) (n : Levels) (s : State) : (setDecoder p n s).out = s.out := rfl
@[simp] theorem setDecoder_faulted (p : Phase) (n : Levels) (s : State) : (setDecoder p n s).faulted = s.faulted := rfl
@[simp] theorem setDecoder_refused (p : Phase) (n : Levels) (s : State) : (setDecoder p n s).refused = s.refused := rfl
@[simp] theorem setDecoder_resetSeen (p : Phase) (n : Levels) (s : State) : (setDecoder p n s).resetSeen = s.resetSeen := rfl
@[simp] theorem setDecoder_build (p : Phase) (n : Levels) (s : State) : (setDecoder p n s).build = s.build := rfl
@[simp] theorem setDecoder_trace (p : Phase) (n : Levels) (s : State) : (setDecoder p n s).trace = s.trace := rfl

@[simp] theorem setCnt_phase (x : Int) (s : State) : (setCnt x s).phase = s.phase := rfl
@[simp] theorem setCnt_chA (x : Int) (s : State) : (setCnt x s).chA = s.chA := rfl
@[simp] theorem setCnt_chB (x : Int) (s : State) : (setCnt x s).chB = s.chB := rfl
@[simp] theorem setCnt_cnt (x : Int) (s : State) : (setCnt x s).cnt = x := rfl
@[simp] theorem setCnt_wakeSec (x : Int) (s : State) : (setCnt x s).wakeSec = s.wakeSec := rfl
@[simp] theorem setCnt_wakeNsec (x : Int) (s : State) : (setCnt x s).wakeNsec = s.wakeNsec := rfl
@[simp] theorem setCnt_ePrev (x : Int) (s : State) : (setCnt x s).ePrev = s.ePrev := rfl
@[simp] theorem setCnt_uPrev (x : Int) (s : State) : (setCnt x s).uPrev = s.uPrev := rfl
@[simp] theorem setCnt_out (x : Int) (s : State) : (setCnt x s).out = s.out := rfl
@[simp] theorem setCnt_faulted (x : Int) (s : State) : (setCnt x s).faulted = s.faulted := rfl
@[simp] theorem setCnt_refused (x : Int) (s : State) : (setCnt x s).refused = s.refused := rfl
@[simp] theorem setCnt_resetSeen (x : Int) (s : State) : (setCnt x s).resetSeen = s.resetSeen := rfl
@[simp] theorem setCnt_build (x : Int) (s : State) : (setCnt x s).build = s.build := rfl
@[simp] theorem setCnt_trace (x : Int) (s : State) : (setCnt x s).trace = s.trace := rfl

@[simp] theorem emit_phase (r : Record) (s : State) : (emit r s).phase = s.phase := rfl
@[simp] theorem emit_chA (r : Record) (s : State) : (emit r s).chA = s.chA := rfl
@[simp] theorem emit_chB (r : Record) (s : State) : (emit r s).chB = s.chB := rfl
@[simp] theorem emit_cnt (r : Record) (s : State) : (emit r s).cnt = s.cnt := rfl
@[simp] theorem emit_wakeSec (r : Record) (s : State) : (emit r s).wakeSec = s.wakeSec := rfl
@[simp] theorem emit_wakeNsec (r : Record) (s : State) : (emit r s).wakeNsec = s.wakeNsec := rfl
@[simp] theorem emit_ePrev (r : Record) (s : State) : (emit r s).ePrev = s.ePrev := rfl
@[simp] theorem emit_uPrev (r : Record) (s : State) : (emit r s).uPrev = s.uPrev := rfl
@[simp] theorem emit_out (r : Record) (s : State) : (emit r s).out = s.out ++ [r] := rfl
@[simp] theorem emit_faulted (r : Record) (s : State) : (emit r s).faulted = s.faulted := rfl
@[simp] theorem emit_refused (r : Record) (s : State) : (emit r s).refused = s.refused := rfl
@[simp] theorem emit_resetSeen (r : Record) (s : State) : (emit r s).resetSeen = s.resetSeen := rfl
@[simp] theorem emit_build (r : Record) (s : State) : (emit r s).build = s.build := rfl
@[simp] theorem emit_trace (r : Record) (s : State) : (emit r s).trace = s.trace := rfl

@[simp] theorem setHistory_phase (e u : NumBits) (s : State) : (setHistory e u s).phase = s.phase := rfl
@[simp] theorem setHistory_chA (e u : NumBits) (s : State) : (setHistory e u s).chA = s.chA := rfl
@[simp] theorem setHistory_chB (e u : NumBits) (s : State) : (setHistory e u s).chB = s.chB := rfl
@[simp] theorem setHistory_cnt (e u : NumBits) (s : State) : (setHistory e u s).cnt = s.cnt := rfl
@[simp] theorem setHistory_wakeSec (e u : NumBits) (s : State) : (setHistory e u s).wakeSec = s.wakeSec := rfl
@[simp] theorem setHistory_wakeNsec (e u : NumBits) (s : State) : (setHistory e u s).wakeNsec = s.wakeNsec := rfl
@[simp] theorem setHistory_ePrev (e u : NumBits) (s : State) : (setHistory e u s).ePrev = e := rfl
@[simp] theorem setHistory_uPrev (e u : NumBits) (s : State) : (setHistory e u s).uPrev = u := rfl
@[simp] theorem setHistory_out (e u : NumBits) (s : State) : (setHistory e u s).out = s.out := rfl
@[simp] theorem setHistory_faulted (e u : NumBits) (s : State) : (setHistory e u s).faulted = s.faulted := rfl
@[simp] theorem setHistory_refused (e u : NumBits) (s : State) : (setHistory e u s).refused = s.refused := rfl
@[simp] theorem setHistory_resetSeen (e u : NumBits) (s : State) : (setHistory e u s).resetSeen = s.resetSeen := rfl
@[simp] theorem setHistory_build (e u : NumBits) (s : State) : (setHistory e u s).build = s.build := rfl
@[simp] theorem setHistory_trace (e u : NumBits) (s : State) : (setHistory e u s).trace = s.trace := rfl

@[simp] theorem setWake_phase (sec nsec : Word64) (s : State) : (setWake sec nsec s).phase = s.phase := rfl
@[simp] theorem setWake_chA (sec nsec : Word64) (s : State) : (setWake sec nsec s).chA = s.chA := rfl
@[simp] theorem setWake_chB (sec nsec : Word64) (s : State) : (setWake sec nsec s).chB = s.chB := rfl
@[simp] theorem setWake_cnt (sec nsec : Word64) (s : State) : (setWake sec nsec s).cnt = s.cnt := rfl
@[simp] theorem setWake_wakeSec (sec nsec : Word64) (s : State) : (setWake sec nsec s).wakeSec = sec := rfl
@[simp] theorem setWake_wakeNsec (sec nsec : Word64) (s : State) : (setWake sec nsec s).wakeNsec = nsec := rfl
@[simp] theorem setWake_ePrev (sec nsec : Word64) (s : State) : (setWake sec nsec s).ePrev = s.ePrev := rfl
@[simp] theorem setWake_uPrev (sec nsec : Word64) (s : State) : (setWake sec nsec s).uPrev = s.uPrev := rfl
@[simp] theorem setWake_out (sec nsec : Word64) (s : State) : (setWake sec nsec s).out = s.out := rfl
@[simp] theorem setWake_faulted (sec nsec : Word64) (s : State) : (setWake sec nsec s).faulted = s.faulted := rfl
@[simp] theorem setWake_refused (sec nsec : Word64) (s : State) : (setWake sec nsec s).refused = s.refused := rfl
@[simp] theorem setWake_resetSeen (sec nsec : Word64) (s : State) : (setWake sec nsec s).resetSeen = s.resetSeen := rfl
@[simp] theorem setWake_build (sec nsec : Word64) (s : State) : (setWake sec nsec s).build = s.build := rfl
@[simp] theorem setWake_trace (sec nsec : Word64) (s : State) : (setWake sec nsec s).trace = s.trace := rfl

@[simp] theorem markFault_phase (f : Fault) (s : State) : (markFault f s).phase = s.phase := rfl
@[simp] theorem markFault_chA (f : Fault) (s : State) : (markFault f s).chA = s.chA := rfl
@[simp] theorem markFault_chB (f : Fault) (s : State) : (markFault f s).chB = s.chB := rfl
@[simp] theorem markFault_cnt (f : Fault) (s : State) : (markFault f s).cnt = s.cnt := rfl
@[simp] theorem markFault_wakeSec (f : Fault) (s : State) : (markFault f s).wakeSec = s.wakeSec := rfl
@[simp] theorem markFault_wakeNsec (f : Fault) (s : State) : (markFault f s).wakeNsec = s.wakeNsec := rfl
@[simp] theorem markFault_ePrev (f : Fault) (s : State) : (markFault f s).ePrev = s.ePrev := rfl
@[simp] theorem markFault_uPrev (f : Fault) (s : State) : (markFault f s).uPrev = s.uPrev := rfl
@[simp] theorem markFault_out (f : Fault) (s : State) : (markFault f s).out = s.out := rfl
@[simp] theorem markFault_faulted (f : Fault) (s : State) : (markFault f s).faulted = some f := rfl
@[simp] theorem markFault_refused (f : Fault) (s : State) : (markFault f s).refused = s.refused := rfl
@[simp] theorem markFault_resetSeen (f : Fault) (s : State) : (markFault f s).resetSeen = s.resetSeen := rfl
@[simp] theorem markFault_build (f : Fault) (s : State) : (markFault f s).build = s.build := rfl
@[simp] theorem markFault_trace (f : Fault) (s : State) : (markFault f s).trace = s.trace := rfl

@[simp] theorem markRefused_phase (r : Refusal) (s : State) : (markRefused r s).phase = s.phase := rfl
@[simp] theorem markRefused_chA (r : Refusal) (s : State) : (markRefused r s).chA = s.chA := rfl
@[simp] theorem markRefused_chB (r : Refusal) (s : State) : (markRefused r s).chB = s.chB := rfl
@[simp] theorem markRefused_cnt (r : Refusal) (s : State) : (markRefused r s).cnt = s.cnt := rfl
@[simp] theorem markRefused_wakeSec (r : Refusal) (s : State) : (markRefused r s).wakeSec = s.wakeSec := rfl
@[simp] theorem markRefused_wakeNsec (r : Refusal) (s : State) : (markRefused r s).wakeNsec = s.wakeNsec := rfl
@[simp] theorem markRefused_ePrev (r : Refusal) (s : State) : (markRefused r s).ePrev = s.ePrev := rfl
@[simp] theorem markRefused_uPrev (r : Refusal) (s : State) : (markRefused r s).uPrev = s.uPrev := rfl
@[simp] theorem markRefused_out (r : Refusal) (s : State) : (markRefused r s).out = s.out := rfl
@[simp] theorem markRefused_faulted (r : Refusal) (s : State) : (markRefused r s).faulted = s.faulted := rfl
@[simp] theorem markRefused_refused (r : Refusal) (s : State) : (markRefused r s).refused = some r := rfl
@[simp] theorem markRefused_resetSeen (r : Refusal) (s : State) : (markRefused r s).resetSeen = s.resetSeen := rfl
@[simp] theorem markRefused_build (r : Refusal) (s : State) : (markRefused r s).build = s.build := rfl
@[simp] theorem markRefused_trace (r : Refusal) (s : State) : (markRefused r s).trace = s.trace := rfl

@[simp] theorem markReset_phase (s : State) : (markReset s).phase = s.phase := rfl
@[simp] theorem markReset_chA (s : State) : (markReset s).chA = s.chA := rfl
@[simp] theorem markReset_chB (s : State) : (markReset s).chB = s.chB := rfl
@[simp] theorem markReset_cnt (s : State) : (markReset s).cnt = s.cnt := rfl
@[simp] theorem markReset_wakeSec (s : State) : (markReset s).wakeSec = s.wakeSec := rfl
@[simp] theorem markReset_wakeNsec (s : State) : (markReset s).wakeNsec = s.wakeNsec := rfl
@[simp] theorem markReset_ePrev (s : State) : (markReset s).ePrev = s.ePrev := rfl
@[simp] theorem markReset_uPrev (s : State) : (markReset s).uPrev = s.uPrev := rfl
@[simp] theorem markReset_out (s : State) : (markReset s).out = s.out := rfl
@[simp] theorem markReset_faulted (s : State) : (markReset s).faulted = s.faulted := rfl
@[simp] theorem markReset_refused (s : State) : (markReset s).refused = s.refused := rfl
@[simp] theorem markReset_resetSeen (s : State) : (markReset s).resetSeen = true := rfl
@[simp] theorem markReset_build (s : State) : (markReset s).build = s.build := rfl
@[simp] theorem markReset_trace (s : State) : (markReset s).trace = s.trace := rfl

@[simp] theorem setTrace_phase (t : List EventWord) (s : State) : (setTrace t s).phase = s.phase := rfl
@[simp] theorem setTrace_chA (t : List EventWord) (s : State) : (setTrace t s).chA = s.chA := rfl
@[simp] theorem setTrace_chB (t : List EventWord) (s : State) : (setTrace t s).chB = s.chB := rfl
@[simp] theorem setTrace_cnt (t : List EventWord) (s : State) : (setTrace t s).cnt = s.cnt := rfl
@[simp] theorem setTrace_wakeSec (t : List EventWord) (s : State) : (setTrace t s).wakeSec = s.wakeSec := rfl
@[simp] theorem setTrace_wakeNsec (t : List EventWord) (s : State) : (setTrace t s).wakeNsec = s.wakeNsec := rfl
@[simp] theorem setTrace_ePrev (t : List EventWord) (s : State) : (setTrace t s).ePrev = s.ePrev := rfl
@[simp] theorem setTrace_uPrev (t : List EventWord) (s : State) : (setTrace t s).uPrev = s.uPrev := rfl
@[simp] theorem setTrace_out (t : List EventWord) (s : State) : (setTrace t s).out = s.out := rfl
@[simp] theorem setTrace_faulted (t : List EventWord) (s : State) : (setTrace t s).faulted = s.faulted := rfl
@[simp] theorem setTrace_refused (t : List EventWord) (s : State) : (setTrace t s).refused = s.refused := rfl
@[simp] theorem setTrace_resetSeen (t : List EventWord) (s : State) : (setTrace t s).resetSeen = s.resetSeen := rfl
@[simp] theorem setTrace_build (t : List EventWord) (s : State) : (setTrace t s).build = s.build := rfl
@[simp] theorem setTrace_trace (t : List EventWord) (s : State) : (setTrace t s).trace = t := rfl

@[simp] theorem atomicAdd_phase (d : Int) (s : State) : (atomicAdd d s).phase = s.phase := rfl
@[simp] theorem atomicAdd_chA (d : Int) (s : State) : (atomicAdd d s).chA = s.chA := rfl
@[simp] theorem atomicAdd_chB (d : Int) (s : State) : (atomicAdd d s).chB = s.chB := rfl
@[simp] theorem atomicAdd_cnt (d : Int) (s : State) : (atomicAdd d s).cnt = wrapInt s.build.cntW (s.cnt + d) := rfl
@[simp] theorem atomicAdd_wakeSec (d : Int) (s : State) : (atomicAdd d s).wakeSec = s.wakeSec := rfl
@[simp] theorem atomicAdd_wakeNsec (d : Int) (s : State) : (atomicAdd d s).wakeNsec = s.wakeNsec := rfl
@[simp] theorem atomicAdd_ePrev (d : Int) (s : State) : (atomicAdd d s).ePrev = s.ePrev := rfl
@[simp] theorem atomicAdd_uPrev (d : Int) (s : State) : (atomicAdd d s).uPrev = s.uPrev := rfl
@[simp] theorem atomicAdd_out (d : Int) (s : State) : (atomicAdd d s).out = s.out := rfl
@[simp] theorem atomicAdd_faulted (d : Int) (s : State) : (atomicAdd d s).faulted = s.faulted := rfl
@[simp] theorem atomicAdd_refused (d : Int) (s : State) : (atomicAdd d s).refused = s.refused := rfl
@[simp] theorem atomicAdd_resetSeen (d : Int) (s : State) : (atomicAdd d s).resetSeen = s.resetSeen := rfl
@[simp] theorem atomicAdd_build (d : Int) (s : State) : (atomicAdd d s).build = s.build := rfl
@[simp] theorem atomicAdd_trace (d : Int) (s : State) : (atomicAdd d s).trace = s.trace := rfl

@[simp] theorem atomicSwap_fst (s : State) : (atomicSwap s).1 = s.cnt := rfl
@[simp] theorem atomicSwap_snd (s : State) : (atomicSwap s).2 = setCnt 0 s := rfl

end Sys2Proof.Machine
end

