-- ==== Sys2Proof/Laws/Ops.lean ====
section
/-!
SUPPORT. What each shared operation can do, once: the check that an event has a step, the wrap of CNT, the decoder's
table, one decoder event, one TICK, one RESET, and one step.
-/

namespace Sys2Proof.Machine

/-! ### Which events have a step -/

theorem unlessStopped_next_iff (s t k : State) :
    unlessStopped s (.next k) = .next t ↔
      buildValid s.build = true ∧ s.faulted = none ∧ s.refused = none ∧ k = t := by
  unfold unlessStopped
  split
  · next hb =>
    cases s.faulted with
    | some f => simp
    | none => cases s.refused <;> simp [hb]
  · next hb => simp [hb]

theorem unlessStopped_of_unmarked {s : State} {k : Host.Outcome State Fault Refusal} (hb : buildValid s.build = true)
    (hf : s.faulted = none) (hr : s.refused = none) : unlessStopped s k = k := by
  simp [unlessStopped, hb, hf, hr]

theorem afterReset_of_running {s : State} {k : Host.Outcome State Fault Refusal} (h : Running s) : afterReset s k = k := by
  obtain ⟨hb, hf, hr, hs⟩ := h
  simp [afterReset, unlessStopped_of_unmarked hb hf hr, hs]

theorem afterReset_next_iff (s t k : State) : afterReset s (.next k) = .next t ↔ Running s ∧ k = t := by
  constructor
  · intro h
    unfold afterReset at h
    cases hs : s.resetSeen with
    | false =>
      rw [hs] at h
      unfold unlessStopped at h
      split at h
      · cases hf : s.faulted with
        | some f => simp [hf] at h
        | none => cases hr : s.refused <;> simp [hf, hr] at h
      · simp at h
    | true =>
      rw [hs] at h
      obtain ⟨hb, hf, hr, hk⟩ := (unlessStopped_next_iff s t k).1 h
      exact ⟨⟨hb, hf, hr, hs⟩, hk⟩
  · rintro ⟨hr, rfl⟩
    exact afterReset_of_running hr

/-! ### The wrap of CNT -/

theorem two_pow_half {n : Nat} (hn : 1 ≤ n) : (2 : Int) ^ n = 2 * 2 ^ (n - 1) := by
  rw [← pow_succ', Nat.sub_add_cancel hn]

/-- `wrap_N(x)` is a value of intN (00_scope.md R12). -/
theorem wrapInt_inIntN {n : Nat} (hn : 1 ≤ n) (x : Int) : inIntN n (wrapInt n x) = true := by
  have h2 := two_pow_half hn
  have hpos : (0 : Int) < 2 ^ (n - 1) := by positivity
  have h0 := Int.emod_nonneg (x + 2 ^ (n - 1)) (show (2 : Int) ^ n ≠ 0 by omega)
  have h1 := Int.emod_lt_of_pos (x + 2 ^ (n - 1)) (show (0 : Int) < 2 ^ n by omega)
  unfold inIntN wrapInt
  exact Bool.and_eq_true_iff.2 ⟨decide_eq_true (by linarith), decide_eq_true (by linarith)⟩

/-- `wrap_N(x)` differs from x by a multiple of 2^N (00_scope.md R12). -/
theorem wrapInt_congr (n : Nat) (x : Int) : ∃ k : Int, wrapInt n x = x + 2 ^ n * k := by
  refine ⟨-((x + 2 ^ (n - 1)) / 2 ^ n), ?_⟩
  have := Int.emod_add_mul_ediv (x + 2 ^ (n - 1)) (2 ^ n)
  unfold wrapInt
  linarith

theorem wrapInt_emod (n : Nat) (x : Int) : wrapInt n x % 2 ^ n = x % 2 ^ n := by
  obtain ⟨k, hk⟩ := wrapInt_congr n x
  rw [hk, Int.add_mul_emod_self_left]

/-- A value of intN is left as it is (00_scope.md R12). -/
theorem wrapInt_of_inIntN {n : Nat} (hn : 1 ≤ n) {x : Int} (h : inIntN n x = true) : wrapInt n x = x := by
  have h2 := two_pow_half hn
  simp only [inIntN, Bool.and_eq_true, decide_eq_true_eq] at h
  unfold wrapInt
  rw [Int.emod_eq_of_lt (by omega) (by omega)]
  omega

theorem wrapInt_wrapInt_add (n : Nat) (x y : Int) : wrapInt n (wrapInt n x + y) = wrapInt n (x + y) := by
  obtain ⟨k, hk⟩ := wrapInt_congr n x
  unfold wrapInt at *
  rw [show x + y + 2 ^ (n - 1) = x + y + 2 ^ (n - 1) from rfl, hk,
    show x + 2 ^ n * k + y + 2 ^ (n - 1) = x + y + 2 ^ (n - 1) + 2 ^ n * k by ring, Int.add_mul_emod_self_left]

/-! ### The decoder -/

/-- An accept entry goes to the phase of the new pair, an adjacent one, and counts one (40_decoder.md R100, R103). -/
theorem transition_accept {p q : Phase} {n : Levels} {d : Int} (h : transition p n = (true, q, d)) :
    q = phaseOf n ∧ pairOf q = n ∧
    ((d = -1 ∧ phaseCode q = phaseCode p + 1) ∨ (d = 1 ∧ phaseCode q + 1 = phaseCode p)) := by
  obtain ⟨a, b⟩ := n
  cases p <;> cases a <;> cases b <;> simp [transition, accept, ignore] at h <;> obtain ⟨rfl, rfl⟩ := h <;> decide

/-- An ignore entry keeps the phase and counts nothing (40_decoder.md R100). -/
theorem transition_ignore {p q : Phase} {n : Levels} {d : Int} (h : transition p n = (false, q, d)) : q = p ∧ d = 0 := by
  obtain ⟨a, b⟩ := n
  cases p <;> cases a <;> cases b <;> simp [transition, accept, ignore] at h <;> obtain ⟨rfl, rfl⟩ := h <;> exact ⟨rfl, rfl⟩

/-- One decoder event: ignored, or accepted with the table's phase and delta (40_decoder.md R101, R102). -/
theorem decoderEvent_cases (n : Levels) (s : State) :
    ((transition s.phase n).1 = false ∧ decoderEvent n s = s) ∨
    ∃ q d, transition s.phase n = (true, q, d) ∧ decoderEvent n s = atomicAdd d (setDecoder q n s) := by
  unfold decoderEvent
  rcases h : transition s.phase n with ⟨acc, q, d⟩
  cases acc
  · exact .inl ⟨rfl, rfl⟩
  · exact .inr ⟨q, d, rfl, rfl⟩

/-- CNT after a decoder event, accepted or not, when CNT is an intCNT_W. -/
theorem decoderEvent_cnt {n : Levels} {s : State} (hw : 1 ≤ s.build.cntW) (hc : inIntN s.build.cntW s.cnt = true) :
    (decoderEvent n s).cnt = wrapInt s.build.cntW (s.cnt + (transition s.phase n).2.2) := by
  rcases decoderEvent_cases n s with ⟨h, he⟩ | ⟨q, d, h, he⟩
  · rcases ht : transition s.phase n with ⟨acc, q, d⟩
    rw [ht] at h
    obtain rfl : acc = false := h
    rw [he, (transition_ignore ht).2, Int.add_zero, wrapInt_of_inIntN hw hc]
  · rw [he, h]; rfl

/-- A decoder event writes nothing but PHASE, CH_A, CH_B and CNT (40_decoder.md R101). -/
theorem decoderEvent_frame (n : Levels) (s : State) :
    sameControl s (decoderEvent n s) ∧ sameMarks s (decoderEvent n s) ∧ sameArguments s (decoderEvent n s) ∧
    (decoderEvent n s).resetSeen = s.resetSeen := by
  rcases decoderEvent_cases n s with ⟨_, he⟩ | ⟨q, d, _, he⟩ <;> rw [he] <;>
    exact ⟨⟨rfl, rfl, rfl, rfl, rfl⟩, ⟨rfl, rfl⟩, ⟨rfl, rfl⟩, rfl⟩

/-! ### TICK and RESET -/

/-- The velocity of a TICK's iteration (42_controller.md R140). -/
theorem iterationOf_v (s : State) : (iterationOf s).v = velocity s.build s.cnt := rfl

/-- The error of a TICK's iteration (42_controller.md R141). -/
theorem iterationOf_e (s : State) : (iterationOf s).e = errorOf s.build (iterationOf s).v := rfl

/-- The recurrence of a TICK's iteration (42_controller.md R142). -/
theorem iterationOf_uRaw (s : State) :
    (iterationOf s).uRaw = piRaw s.build (iterationOf s).e (numVal s.ePrev) (numVal s.uPrev) := rfl

/-- The saturated control value of a TICK's iteration (42_controller.md R143). -/
theorem iterationOf_u (s : State) : (iterationOf s).u = sat s.build (iterationOf s).uRaw := rfl

/-- The deadband of a TICK's iteration (42_controller.md R145). -/
theorem iterationOf_db (s : State) : (iterationOf s).db = deadband (iterationOf s).u (numVal s.uPrev) := rfl

/-- The direction of a TICK's iteration (42_controller.md R146). -/
theorem iterationOf_dir (s : State) : (iterationOf s).dir = dirOf (iterationOf s).u := rfl

/-- The duty of a TICK's iteration (42_controller.md R146). -/
theorem iterationOf_duty (s : State) :
    (iterationOf s).duty = dutyOf s.build (actuated (iterationOf s).u (numVal s.uPrev)) := rfl

/-- What the iteration publishes: both records, ACT first, and the history (41_sample_clock.md R122, 20_memory.md
R61). -/
theorem publish_eq (it : Iteration) (s : State) :
    publish it s = { s with
      ePrev := numOf s.build.numFmt it.e
      uPrev := numOf s.build.numFmt it.u
      out := s.out ++ [actRecord s.build it, smpRecord s.build s.wakeSec s.wakeNsec it] } := by
  simp [publish, setHistory, emit, List.append_assoc]

/-- The state a TICK leaves when no value is a NaN and the deadline's seconds fit (41_sample_clock.md R122). -/
def tickDone (s : State) : State :=
  setWake (BitVec.ofNat 64 (advanceSec s.build s.wakeSec.toNat s.wakeNsec.toNat))
    (BitVec.ofNat 64 (advanceNsec s.build s.wakeNsec.toNat)) (publish (iterationOf s) (setCnt 0 s))

/-- One TICK: the NaN fault, the overflow fault, or the whole iteration (41_sample_clock.md R122, R127;
42_controller.md R150). -/
theorem tickEvent_cases (s : State) :
    (¬ NoNaN s ∧ tickEvent s = markFault .numericNaN (setCnt 0 s)) ∨
    (NoNaN s ∧ ¬ WakeFits s ∧ tickEvent s = markFault .wakeOverflow (publish (iterationOf s) (setCnt 0 s))) ∨
    (NoNaN s ∧ WakeFits s ∧ tickEvent s = tickDone s) := by
  have he : tickEvent s = runIteration (iterationOf s) (setCnt 0 s) := rfl
  rw [he]
  unfold runIteration NoNaN
  cases h : iterationNaN (iterationOf s)
  · by_cases hw : WakeFits s
    · exact .inr (.inr ⟨rfl, hw, if_pos hw⟩)
    · exact .inr (.inl ⟨rfl, hw, if_neg hw⟩)
  · exact .inl ⟨by simp, by simp⟩

/-- A TICK writes nothing of the decoder's, no argument of the step, and not REFUSED (41_sample_clock.md R122). -/
theorem tickEvent_frame (s : State) :
    sameDecoder s (tickEvent s) ∧ sameArguments s (tickEvent s) ∧ (tickEvent s).refused = s.refused ∧
    (tickEvent s).resetSeen = s.resetSeen ∧ (tickEvent s).cnt = 0 := by
  rcases tickEvent_cases s with ⟨_, he⟩ | ⟨_, _, he⟩ | ⟨_, _, he⟩ <;> rw [he] <;>
    exact ⟨⟨rfl, rfl, rfl⟩, ⟨rfl, rfl⟩, rfl, rfl, rfl⟩

/-- RESET leaves OUT, the marks and the arguments of the step (70_reset_and_hazards.md R230). -/
theorem resetEvent_frame (s : State) :
    (resetEvent s).out = s.out ∧ sameMarks s (resetEvent s) ∧ sameArguments s (resetEvent s) :=
  ⟨rfl, ⟨rfl, rfl⟩, ⟨rfl, rfl⟩⟩

/-! ### exec and step -/

theorem exec_edge_next_iff (c : Channel) (l : Bool) (s t : State) :
    exec (.edge c l) s = .next t ↔ Running s ∧ decoderEvent (edgePair c l s) s = t := afterReset_next_iff ..

theorem exec_pair_next_iff (a b : Bool) (s t : State) :
    exec (.pair a b) s = .next t ↔ Running s ∧ decoderEvent (sampledPair a b) s = t := afterReset_next_iff ..

theorem exec_tick_next_iff (s t : State) : exec .tick s = .next t ↔ Running s ∧ tickEvent s = t := afterReset_next_iff ..

theorem exec_reset_next_iff (s t : State) :
    exec .reset s = .next t ↔
      buildValid s.build = true ∧ s.faulted = none ∧ s.refused = none ∧ resetEvent s = t := unlessStopped_next_iff ..

/-- What one step can do when it answers a next state: nothing was presented; an event was performed on the state
without its word; or a reserved word was refused. -/
theorem step_next_cases {s t : State} (h : step s = .next t) :
    (s.trace = [] ∧ t = s) ∨
    (∃ w rest i, s.trace = w :: rest ∧ decode w = .ok i ∧ exec i (setTrace rest s) = .next t) ∨
    (∃ w rest, s.trace = w :: rest ∧ decode w = .error .reservedEvent ∧ Running s ∧
      t = markRefused .reservedEvent (setTrace rest s)) := by
  unfold step presented decodeBytes at h
  cases ht : s.trace with
  | nil =>
    rw [ht] at h
    exact .inl ⟨rfl, ((unlessStopped_next_iff s t s).1 h).2.2.2.symm⟩
  | cons w rest =>
    rw [ht] at h
    cases hd : decode w with
    | ok i =>
      simp only [hd] at h
      exact .inr (.inl ⟨w, rest, i, rfl, hd, h⟩)
    | error e =>
      cases e with
      | reservedEvent =>
        simp only [hd, List.tail_cons] at h
        obtain ⟨hr, hk⟩ := (afterReset_next_iff _ t _).1 h
        exact .inr (.inr ⟨w, rest, rfl, hd, hr, hk.symm⟩)
      | noWord =>
        unfold decode at hd
        split_ifs at hd
        cases hd

/-- A step leaves the build (10_state.md R20). -/
theorem exec_build {i : Instr} {s t : State} (h : exec i s = .next t) : t.build = s.build := by
  cases i with
  | edge c l => obtain ⟨_, rfl⟩ := (exec_edge_next_iff c l s t).1 h; exact (decoderEvent_frame _ s).2.2.1.1
  | pair a b => obtain ⟨_, rfl⟩ := (exec_pair_next_iff a b s t).1 h; exact (decoderEvent_frame _ s).2.2.1.1
  | tick => obtain ⟨_, rfl⟩ := (exec_tick_next_iff s t).1 h; exact (tickEvent_frame s).2.1.1
  | reset => obtain ⟨_, _, _, rfl⟩ := (exec_reset_next_iff s t).1 h; rfl

/-- An event does not look at the words after it (10_state.md R31). -/
theorem exec_trace {i : Instr} {s t : State} (h : exec i s = .next t) : t.trace = s.trace := by
  cases i with
  | edge c l => obtain ⟨_, rfl⟩ := (exec_edge_next_iff c l s t).1 h; exact (decoderEvent_frame _ s).2.2.1.2
  | pair a b => obtain ⟨_, rfl⟩ := (exec_pair_next_iff a b s t).1 h; exact (decoderEvent_frame _ s).2.2.1.2
  | tick => obtain ⟨_, rfl⟩ := (exec_tick_next_iff s t).1 h; exact (tickEvent_frame s).2.1.2
  | reset => obtain ⟨_, _, _, rfl⟩ := (exec_reset_next_iff s t).1 h; rfl

end Sys2Proof.Machine
end

