-- ==== Sys2Proof/Laws/Controller.lean ====
section
/-!
SUPPORT. What a valid build gives the controller, and that the registers a TICK writes hold the values it computed.
-/

namespace Sys2Proof.Machine

/-- A valid build's counter is at least 2 bits wide (00_scope.md R10). -/
theorem buildValid_cntW {b : Build} (h : buildValid b = true) : 2 ≤ b.cntW := by
  simp only [buildValid, Bool.and_eq_true, decide_eq_true_eq] at h
  exact h.1.1.1.1.1.1.1.1.1.1

/-- A valid build's voltage limit is a finite positive value of its format (00_scope.md R10). -/
theorem buildValid_vMax {b : Build} (h : buildValid b = true) :
    ∃ m, numVal b.vMax = .fin false m ∧ 0 < m ∧ numFmtOf b.vMax = b.numFmt := by
  simp only [buildValid, paramFinite, Bool.and_eq_true, decide_eq_true_eq] at h
  obtain ⟨⟨_, hf⟩, hpos⟩ := And.intro (And.intro trivial h.1.1.2) h.2
  cases hv : numVal b.vMax with
  | nan => rw [hv] at hf; simp [isFinite] at hf
  | inf s => rw [hv] at hf; simp [isFinite] at hf
  | fin s m =>
    rw [hv] at hpos
    cases s
    · exact ⟨m, rfl, by simpa [gtVal, ltVal, posZero, signedMag] using hpos, hf.1⟩
    · simp [gtVal, ltVal, posZero, signedMag] at hpos
      omega

/-- Saturation gives one of the limits or its argument (42_controller.md R143). -/
theorem sat_cases (b : Build) (x : NumVal) :
    sat b x = numVal b.vMax ∨ sat b x = negVal (numVal b.vMax) ∨ sat b x = x := by
  unfold sat
  split_ifs <;> simp

/-- The register E_PREV holds the error that was written to it. -/
theorem numVal_numOf_e (s : State) : numVal (numOf s.build.numFmt (iterationOf s).e) = (iterationOf s).e :=
  numVal_numOf _ (subVal_representable _ _ _)

/-- The register U_PREV holds the saturated value that was written to it. -/
theorem numVal_numOf_u {s : State} (hb : buildValid s.build = true) :
    numVal (numOf s.build.numFmt (iterationOf s).u) = (iterationOf s).u := by
  obtain ⟨_, _, _, hf⟩ := buildValid_vMax hb
  have hv : representable s.build.numFmt (numVal s.build.vMax) = true := hf ▸ numVal_representable s.build.vMax
  refine numVal_numOf _ ?_
  rcases sat_cases s.build (iterationOf s).uRaw with h | h | h <;> rw [iterationOf_u, h]
  · exact hv
  · exact negVal_representable _ _ hv
  · exact subVal_representable _ _ _

/-- An iteration without NaN has none in v, e and u_raw (42_controller.md R150). -/
theorem noNaN_iff (s : State) :
    NoNaN s ↔ isNaN (iterationOf s).v = false ∧ isNaN (iterationOf s).e = false ∧ isNaN (iterationOf s).uRaw = false := by
  simp [NoNaN, iterationNaN, and_assoc]

end Sys2Proof.Machine
end

