-- ==== Sys2Proof/Laws/PerInstr.lean ====
section
/-!
SUPPORT. What holds of every event as syntax, one lemma per constructor: its word has the fixed bits of its row of
spec/opcode_table.json and is one of the defined words.
-/

namespace Sys2Proof.Laws.RowPattern

/-- The mask of the event's row (30_encoding.md R74). -/
def rowMask : Instr → EventWord
  | .edge _ _ => 0xFC
  | .pair _ _ => 0xFC
  | .tick => 0xFF
  | .reset => 0xFF

/-- The match value of the event's row (30_encoding.md R74). -/
def rowMatch : Instr → EventWord
  | .edge _ _ => 0x10
  | .pair _ _ => 0x20
  | .tick => 0x30
  | .reset => 0xF0

/-- The event's word has its row's fixed bits and is one of the ten defined words. -/
def Statement (i : Instr) : Prop := encode i &&& rowMask i = rowMatch i ∧ wordWellFormed (encode i) = true

theorem edge (c : Channel) (l : Bool) : Statement (.edge c l) := by cases c <;> cases l <;> exact ⟨rfl, rfl⟩

theorem pair (a b : Bool) : Statement (.pair a b) := by cases a <;> cases b <;> exact ⟨rfl, rfl⟩

theorem tick : Statement .tick := ⟨rfl, rfl⟩

theorem reset : Statement .reset := ⟨rfl, rfl⟩

end Sys2Proof.Laws.RowPattern
end

