-- ==== Sys2Proof/Machine/Ports.lean ====
section
/-!
DEFINITION. The block's ports (30_encoding.md R78): which event each input port presents and what each output record
shows on the output ports; and the last-value view of OUT (10_state.md R28).
-/

namespace Sys2Proof.Machine

/-- The input ports (30_encoding.md R78). -/
structure InPorts where
  rst : Bool
  edgeValid : Bool
  edgeCh : Bool
  edgeLvl : Bool
  pairValid : Bool
  pairA : Bool
  pairB : Bool
  tick : Bool
  deriving DecidableEq, Repr

/-- The events that are valid at the input ports, listed in the order of R78's table. -/
def portEvents (p : InPorts) : List Instr :=
  (if p.rst then [.reset] else []) ++
  (if p.edgeValid then [.edge (channelOfBit p.edgeCh) p.edgeLvl] else []) ++
  (if p.pairValid then [.pair p.pairA p.pairB] else []) ++
  (if p.tick then [.tick] else [])

/-- A serialization of simultaneous valid inputs: the host puts them into one order, any order (30_encoding.md R78,
43_counter_sync.md R176). -/
def serializes (p : InPorts) (t : List Instr) : Bool := t.isPerm (portEvents p)

/-- What a record shows on `act_valid`, `act_dir`, `act_duty`: none for not valid (30_encoding.md R78). -/
def actPort : Record → Option (BitVec 1 × NumBits)
  | .act dir duty => some (dirBit dir, duty)
  | .smp _ _ _ _ => none

/-- What a record shows on `smp_valid`, `smp_sec`, `smp_nsec`, `smp_v`, `smp_u`: none for not valid
(30_encoding.md R78). -/
def smpPort : Record → Option (Word64 × Word64 × NumBits × NumBits)
  | .act _ _ => none
  | .smp sec nsec v u => some (sec, nsec, v, u)

/-- The last actuator command of OUT, the projection that 10_state.md R28 allows. -/
def lastAct (out : List Record) : Option (BitVec 1 × NumBits) := (out.filterMap actPort).getLast?

/-- The last sample of OUT, the projection that 10_state.md R28 allows. -/
def lastSmp (out : List Record) : Option (Word64 × Word64 × NumBits × NumBits) := (out.filterMap smpPort).getLast?

end Sys2Proof.Machine
end

