-- ==== Sys2Proof/Tests/Slice0.lean ====
section
/-!
SUPPORT. The model's own tests, each expected value taken from the spec (its test vectors or its rules' examples), and
one witness for each statement that has hypotheses: a concrete state and operands that meet all of them.
-/

namespace Sys2Proof.Tests

open Sys2Proof Sys2Proof.Machine

/-! ### Helpers -/

/-- The default build with a given CPR and the test vectors' T0 (95_test_vectors.md). -/
def buildOf (cpr : Nat) : Build := Config.defaultBuildWith cpr 10 950000000 .little

/-- A state after RESET of that build, in a phase and with a count. -/
def stateAt (cpr : Nat) (p : Phase) (cnt : Int) : State := setCnt cnt (setDecoder p (pairOf p) (State.resetOf (buildOf cpr)))

/-- The next state of an outcome, the given one where there is none. -/
def nextOr (d : State) : Host.Outcome State Fault Refusal → State
  | .next t => t
  | .fault _ => d
  | .refused _ => d

/-- The values of an iteration after RESET, as patterns: v, e, u_raw, u, deadband, direction, duty. -/
def rowOf (cpr : Nat) (delta : Int) : NumBits × NumBits × NumBits × NumBits × Bool × Dir × NumBits :=
  let it := iterate (buildOf cpr) delta posZero posZero
  (numOf .binary32 it.v, numOf .binary32 it.e, numOf .binary32 it.uRaw, numOf .binary32 it.u, it.db, it.dir,
    numOf .binary32 it.duty)

/-- The state that a TICK finds with a NaN in E_PREV. -/
def nanState : State := setHistory (.b32 0x7FC00000#32) (.b32 0#32) (stateAt 600 .S1 5)

/-- The state of 95_test_vectors.md's last sample-clock row: the next advance passes 2^64 seconds. -/
def lateState : State := setWake 0xFFFFFFFFFFFFFFFF#64 950000000#64 (stateAt 600 .S1 5)

/-- A state before its first RESET. -/
def coldState : State := { State.reset with resetSeen := false, trace := [0x30] }

theorem running_stateAt_600 (p : Phase) (x : Int) : Running (stateAt 600 p x) :=
  ⟨show buildValid (buildOf 600) = true by decide, rfl, rfl, rfl⟩

/-! ### Well-formedness: a reserved word is refused by the check, a defined one is not (30_encoding.md R75) -/

theorem test_wellFormed_rejects_reserved_words :
    [0x00, 0x14, 0x1C, 0x24, 0x31, 0x3F, 0x40, 0xF1, 0xFF].all (fun w => !wordWellFormed w) = true := by decide

theorem test_wellFormed_accepts_the_ten_words : definedWords.all wordWellFormed = true := by decide

/-- A build that breaks a condition of 00_scope.md R10 fails the build check, condition by condition. -/
theorem test_build_check_rejects :
    buildValid (buildOf 600) = true ∧
    buildValid { buildOf 600 with cntW := 1 } = false ∧ buildValid { buildOf 600 with cpr := 0 } = false ∧
    buildValid { buildOf 600 with periodNs := 0 } = false ∧ buildValid { buildOf 600 with t0Nsec := 10 ^ 9 } = false ∧
    buildValid { buildOf 600 with sp := .b32 0x7F800000#32 } = false ∧
    buildValid { buildOf 600 with b0 := .b32 0xFF800000#32 } = false ∧
    buildValid { buildOf 600 with b1 := .b32 0x7FC00000#32 } = false ∧
    buildValid { buildOf 600 with a1 := .b32 0x7F800001#32 } = false ∧
    buildValid { buildOf 600 with vMax := .b32 0x7F800000#32 } = false ∧
    buildValid { buildOf 600 with vMax := .b32 0x80000000#32 } = false ∧
    buildValid { buildOf 600 with numFmt := .binary64 } = false := by decide

/-! ### Decoding: the words of 30_encoding.md R79 written out bit by bit from R71 -/

theorem test_decode_edge : decode 0b00010010#8 = .ok (.edge .B false) ∧ decode 0b00010001#8 = .ok (.edge .A true) := ⟨rfl, rfl⟩

theorem test_decode_pair : decode 0b00100010#8 = .ok (.pair true false) ∧ decode 0b00100001#8 = .ok (.pair false true) := ⟨rfl, rfl⟩

theorem test_decode_tick : decode 0b00110000#8 = .ok .tick := rfl

theorem test_decode_reset : decode 0b11110000#8 = .ok .reset := rfl

theorem test_decode_rejects_neighbours :
    decode 0x14 = .error .reservedEvent ∧ decode 0x24 = .error .reservedEvent ∧ decode 0x31 = .error .reservedEvent ∧
    decode 0xF1 = .error .reservedEvent ∧ decodeBytes [] = .error .noWord := ⟨rfl, rfl, rfl, rfl, rfl⟩

theorem test_table_words : decodeTableWord 8 0x10 = some (.edge .A false) ∧ decodeTableWord 8 0xF0 = some .reset ∧
    decodeTableWord 8 0x3F = none ∧ opField 0x23 = 2#4 := ⟨rfl, rfl, rfl, rfl⟩

/-! ### EDGE and PAIR (95_test_vectors.md, decoder tables; V-L1-2) -/

/-- From S1, EDGE A,1 gives S2 and -1; from S3, EDGE A,0 gives S4 and -1. -/
theorem test_edge_accepted :
    nextOr State.reset (exec (.edge .A true) (stateAt 600 .S1 0)) = stateAt 600 .S2 (-1) ∧
    nextOr State.reset (exec (.edge .A false) (stateAt 600 .S3 0)) = stateAt 600 .S4 (-1) := by decide

/-- From S1 at CNT = 2^31 - 1, EDGE B,1 wraps to -2^31. -/
theorem test_edge_wraps : (nextOr State.reset (exec (.edge .B true) (stateAt 600 .S1 0x7FFFFFFF))).cnt = -2147483648 := by decide

/-- V-L1-2: from S2 with CNT = 5, PAIR 0,1 changes nothing. -/
theorem test_pair_both_bits_ignored :
    nextOr State.reset (exec (.pair false true) (stateAt 600 .S2 5)) = stateAt 600 .S2 5 := by decide

/-- From S4, PAIR 1,1 gives S3 and +1. -/
theorem test_pair_adjacent : nextOr State.reset (exec (.pair true true) (stateAt 600 .S4 0)) = stateAt 600 .S3 1 := by decide

/-! ### TICK and RESET -/

/-- P1, its first TICK: delta = -4 (95_test_vectors.md). -/
theorem test_tick_first_of_p1 :
    (nextOr State.reset (step ((stateAt 600 .S1 (-4)).withFetchWord 8 0x30))).out =
      [.act .forward (.b32 0x3D9C67DF#32),
        .smp 10#64 950000000#64 (.b32 0xC0800000#32) (.b32 0x3EEA9BCF#32)] := by decide

/-- The advance of a deadline into the next second, and the fault past 2^64 seconds (95_test_vectors.md, sample
clock). -/
theorem test_tick_advance :
    (nextOr State.reset (exec .tick (stateAt 600 .S1 0))).wakeSec = 11#64 ∧
    (nextOr State.reset (exec .tick (stateAt 600 .S1 0))).wakeNsec = 50000000#64 ∧
    (nextOr State.reset (exec .tick lateState)).faulted = some .wakeOverflow ∧
    (nextOr State.reset (exec .tick lateState)).wakeSec = 0xFFFFFFFFFFFFFFFF#64 ∧
    advanceSec { buildOf 600 with periodNs := 2500000000 } 1 600000000 = 4 ∧
    advanceNsec { buildOf 600 with periodNs := 2500000000 } 600000000 = 100000000 := by decide

/-- After RESET with INIT_PHASE = S3: S3, (1, 1), CNT = 0 and OUT unchanged (95_test_vectors.md, reset). -/
theorem test_reset_init_phase :
    let s := emit (.act .reverse (.b32 0#32)) { stateAt 600 .S2 7 with build := { buildOf 600 with initPhase := .S3 } }
    let t := nextOr State.reset (exec .reset s)
    t.phase = .S3 ∧ storedPair t = (true, true) ∧ t.cnt = 0 ∧ t.out = s.out ∧ deadline t = 10950000000 := by decide

/-! ### The controller (95_test_vectors.md, controller table; V-L1-3; saturation and mapping) -/

theorem test_row_delta_minus_4 : rowOf 600 (-4) =
    (.b32 0xC0800000#32, .b32 0x42A80000#32, .b32 0x3EEA9BCF#32, .b32 0x3EEA9BCF#32, false, .forward, .b32 0x3D9C67DF#32) := by
  decide

theorem test_row_deadbanded : rowOf 6 4 =
    (.b32 0x43C80000#32, .b32 0xC3A00000#32, .b32 0xBFDF6FD2#32, .b32 0xBFDF6FD2#32, true, .reverse, .b32 0#32) := by decide

theorem test_row_largest_delta : rowOf 600 2147483647 =
    (.b32 0x4F000000#32, .b32 0xCEFFFFFF#32, .b32 0xCB32BFDA#32, .b32 0xC0C00000#32, true, .reverse, .b32 0#32) := by decide

/-- V-L1-3. -/
theorem test_recurrence :
    numOf .binary32 (piRaw (buildOf 600) (numVal (.b32 0x429A0000#32)) (numVal (.b32 0x42A80000#32))
      (numVal (.b32 0x3EEA9BCF#32))) = .b32 0x3F959096#32 := by decide

theorem test_saturation_and_sign :
    sat (buildOf 600) (numVal (.b32 0x40C00001#32)) = numVal (.b32 0x40C00000#32) ∧
    sat (buildOf 600) (numVal (.b32 0xC0E00000#32)) = numVal (.b32 0xC0C00000#32) ∧
    sat (buildOf 600) (.fin true 0) = .fin true 0 ∧
    deadband (numVal (.b32 0x80000000#32)) (numVal (.b32 0xBF000000#32)) = true ∧
    dutyOf (buildOf 600) (numVal (.b32 0x40400000#32)) = numVal (.b32 0x3F000000#32) := by decide

/-- nonneg(-1e-30) is false and nonneg(-0.0) is true (95_test_vectors.md, controller). -/
theorem test_nonneg :
    nonneg (numVal (.b32 0x8DA24260#32)) = false ∧ nonneg (numVal (.b32 0x80000000#32)) = true := by decide

/-! ### The host's side -/

/-- EDGE_SLIP: one edge before a deadline; without slip only edge then TICK, with slip both orders
(95_test_vectors.md, counter and synchronizer). -/
theorem test_edge_slip :
    let e : Timed := ⟨1, .edge .B true⟩
    let k : Timed := ⟨2, .tick⟩
    admitted false [e, k] [e, k] = true ∧ admitted false [e, k] [k, e] = false ∧ admitted true [e, k] [k, e] = true := by
  decide

/-- 30_encoding.md R79: case, comments and several lines. -/
theorem test_assembler :
    assemble ['e', 'd', 'g', 'e', ' ', 'a', ',', '1', ' ', ';', ' ', 'x', '\n', 'T', 'I', 'C', 'K', 'S', ' ', '2', '\n'] =
      some [0x11, 0x30, 0x30] := by decide

/-- V-L1-8. -/
theorem test_telemetry_frame :
    telemetryFrame .little (.smp 10#64 500000000#64 (.b32 0x429F999A#32) (.b32 0x3ED1EB85#32)) =
      some [0x0a, 0, 0, 0, 0, 0, 0, 0, 0, 0x65, 0xcd, 0x1d, 0, 0, 0, 0, 0x9a, 0x99, 0x9f, 0x42, 0x85, 0xeb, 0xd1, 0x3e] := by
  decide

/-- Simultaneous inputs are serialized in any order (30_encoding.md R78). -/
theorem test_ports :
    let p : InPorts := ⟨false, true, true, true, false, false, false, true⟩
    serializes p [.edge .B true, .tick] = true ∧ serializes p [.tick, .edge .B true] = true ∧
    serializes p [.tick] = false ∧ lastAct [.act .reverse (.b32 0#32)] = some (1#1, .b32 0#32) := by decide

/-! ### Witnesses: for each statement with hypotheses, a state and operands that meet them -/

theorem witness_StepPerformsDecodedEvent :
    ((stateAt 600 .S1 0).withFetchWord 8 0x11).trace = 0x11 :: [] ∧ decode 0x11 = .ok (.edge .A true) := ⟨rfl, rfl⟩

theorem witness_DecodeEncodeAgree : wellFormed (.edge .B true) = true ∧ wellFormed .tick = true := ⟨rfl, rfl⟩

theorem witness_ReservedWordIsRefused :
    Running ((stateAt 600 .S1 0).withFetchWord 8 0x14) ∧
    ((stateAt 600 .S1 0).withFetchWord 8 0x14).trace = 0x14 :: [] ∧ wordWellFormed 0x14 = false :=
  ⟨running_stateAt_600 .S1 0, rfl, rfl⟩

theorem witness_MarkedStateHasNoStep :
    (markFault .numericNaN State.reset).faulted ≠ none ∧ (markRefused .reservedEvent State.reset).refused ≠ none := by decide

/-- A step that sets each mark with each reason (for MarksAreSetOnlyAsListed). -/
theorem witness_MarksAreSetOnlyAsListed :
    (nextOr State.reset (step (nanState.withFetchWord 8 0x30))).faulted = some .numericNaN ∧
    (nextOr State.reset (step (lateState.withFetchWord 8 0x30))).faulted = some .wakeOverflow ∧
    (nextOr State.reset (step (State.reset.withFetchWord 8 0x31))).refused = some .reservedEvent := by decide

theorem witness_InvalidBuildIsRefused :
    (State.resetOf { buildOf 600 with cntW := 1 }).build.cntW < 2 ∧
    (State.resetOf { buildOf 600 with cpr := 0 }).build.cpr < 1 ∧
    (State.resetOf { buildOf 600 with periodNs := 0 }).build.periodNs < 1 ∧
    10 ^ 9 ≤ (State.resetOf { buildOf 600 with t0Nsec := 10 ^ 9 }).build.t0Nsec ∧
    isFinite (numVal (.b32 0x7F800000#32)) = false ∧
    isFinite (kVel { buildOf 600 with cpr := 0 }) = false ∧ gtVal (numVal (.b32 0x80000000#32)) posZero = false := by decide

theorem witness_OnlyResetRunsFirst :
    buildValid coldState.build = true ∧ coldState.faulted = none ∧ coldState.refused = none ∧
    coldState.resetSeen = false ∧ coldState.trace = 0x30 :: [] ∧ (0x30 : EventWord) ≠ 0xF0 := by decide

theorem witness_IdleHoldsState : Running State.reset ∧ State.reset.trace = [] := ⟨⟨by decide, rfl, rfl, rfl⟩, rfl⟩

/-- A step that answers a next state, one for each event and for a reserved word. -/
theorem witness_step_next :
    step ((stateAt 600 .S1 0).withFetchWord 8 0x11) = .next (stateAt 600 .S2 (-1)) ∧
    step ((stateAt 600 .S1 0).withFetchWord 8 0x23) = .next (stateAt 600 .S1 0) ∧
    step ((stateAt 600 .S1 0).withFetchWord 8 0x30) = .next (tickEvent (stateAt 600 .S1 0)) ∧
    step ((stateAt 600 .S2 5).withFetchWord 8 0xF0) = .next (stateAt 600 .S1 0) ∧
    step ((stateAt 600 .S1 0).withFetchWord 8 0x00) = .next (markRefused .reservedEvent (stateAt 600 .S1 0)) := ⟨rfl, rfl, rfl, rfl, rfl⟩

theorem witness_reset_hypotheses :
    buildValid (buildOf 600) = true ∧ (stateAt 600 .S2 5).faulted = none ∧ (stateAt 600 .S2 5).refused = none := by decide

theorem witness_DefaultResetValues : (999999999 : Nat) < 10 ^ 9 := by decide

/-- Each clause of TransitionByPhaseCode is met by a phase and a pair. -/
theorem witness_TransitionByPhaseCode :
    phaseCode (phaseOf (false, false)) = phaseCode .S4 + 1 ∧ phaseCode (phaseOf (false, true)) = phaseCode .S1 - 1 ∧
    phaseCode (phaseOf (true, true)) = phaseCode .S3 ∧ phaseCode (phaseOf (true, false)) = phaseCode .S4 + 2 := by decide

/-- A running state whose channel bits are its phase's pair and whose CNT is at the end of its range. -/
theorem witness_decoder_hypotheses :
    Running (stateAt 600 .S3 2147483647) ∧ storedPair (stateAt 600 .S3 2147483647) = pairOf (stateAt 600 .S3 2147483647).phase ∧
    inIntN (stateAt 600 .S3 2147483647).build.cntW (stateAt 600 .S3 2147483647).cnt = true ∧
    phaseCode (phaseOf (false, false)) = phaseCode (stateAt 600 .S3 2147483647).phase + 2 :=
  ⟨running_stateAt_600 .S3 _, rfl, rfl, rfl⟩

theorem witness_decoder_event :
    isDecoderEvent (.edge .A true) = true ∧ isDecoderEvent (.pair true true) = true ∧
    exec (.edge .A true) (stateAt 600 .S1 0) = .next (stateAt 600 .S2 (-1)) ∧
    exec (.pair true true) (stateAt 600 .S2 (-1)) = .next (stateAt 600 .S3 (-2)) := ⟨rfl, rfl, rfl, rfl⟩

/-- A closed walk (for WalkCountsItsTurns and CyclesCountFour). -/
theorem witness_walk :
    (stateAt 600 .S1 0).phase = .S1 ∧ runEvents [.edge .A true, .edge .A false] (stateAt 600 .S1 0) = some (stateAt 600 .S1 0) := ⟨rfl, rfl⟩

theorem witness_WrapIsTheCongruentValue :
    (stateAt 600 .S1 2147483647).cnt = 2 ^ ((stateAt 600 .S1 2147483647).build.cntW - 1) - 1 ∧
    (stateAt 600 .S1 (-2147483648)).cnt = -(2 ^ ((stateAt 600 .S1 (-2147483648)).build.cntW - 1)) ∧
    1 ≤ (stateAt 600 .S1 0).build.cntW := by decide

/-- A run without RESET that takes a count (for CountsAreConserved and DeadlinesDoNotDrift). -/
theorem witness_run_with_tick :
    Instr.reset ∉ [Instr.edge .A true, Instr.tick] ∧
    runEvents [.edge .A true, .tick] (stateAt 600 .S1 0) = some (tickEvent (stateAt 600 .S2 (-1))) ∧
    (tickEvent (stateAt 600 .S2 (-1))).faulted = none := by decide

/-- The three outcomes of TICK each have a state (for TickResult). -/
theorem witness_TickResult :
    iterationNaN (iterationOf nanState) = true ∧ iterationNaN (iterationOf lateState) = false ∧
    ¬ WakeFits lateState ∧ iterationNaN (iterationOf (stateAt 600 .S1 0)) = false ∧ WakeFits (stateAt 600 .S1 0) := by
  unfold WakeFits
  decide

theorem witness_tick_next :
    exec .tick (stateAt 600 .S1 0) = .next (tickEvent (stateAt 600 .S1 0)) ∧
    (tickEvent (stateAt 600 .S1 0)).faulted = none ∧
    exec .reset (stateAt 600 .S2 5) = .next (stateAt 600 .S1 0) := ⟨rfl, by decide, rfl⟩

/-- A TICK and a RESET, each with decoder events after it (for DeadbandLastsOneCycle). -/
theorem witness_DeadbandLastsOneCycle :
    (∀ i ∈ [Instr.edge .A true, Instr.pair true true], isDecoderEvent i = true) ∧
    runEvents [.edge .A true, .pair true true] (tickEvent (stateAt 600 .S1 0)) =
      some (setCnt (-2) (setDecoder .S3 (true, true) (tickEvent (stateAt 600 .S1 0)))) ∧
    (tickEvent (stateAt 600 .S1 0)).faulted = none ∧
    exec .reset (stateAt 600 .S2 5) = .next (stateAt 600 .S1 0) ∧
    runEvents [.edge .A true, .pair true true] (stateAt 600 .S1 0) = some (stateAt 600 .S3 (-2)) := by
  refine ⟨by decide, rfl, by decide, rfl, rfl⟩

/-- Both carries of AdvanceAddsOnePeriod, and an overrun. -/
theorem witness_AdvanceAddsOnePeriod :
    (buildOf 600).periodNs < 10 ^ 9 ∧ (stateAt 600 .S1 0).wakeNsec.toNat < 10 ^ 9 ∧
    10 ^ 9 ≤ (stateAt 600 .S1 0).wakeNsec.toNat + (buildOf 600).periodNs ∧
    899999999 + (buildOf 600).periodNs < 10 ^ 9 ∧
    deadline (stateAt 600 .S1 0) + (buildOf 600).periodNs ≤ 11050000000 := by decide

/-- Each clause of SaturationClamps: above, below and within the limits, the limits themselves among them. -/
theorem witness_SaturationClamps :
    gtVal (.inf false) (numVal (buildOf 600).vMax) = true ∧
    ltVal (numVal (.b32 0xC0C00001#32)) (negVal (numVal (buildOf 600).vMax)) = true ∧
    within (negVal (numVal (buildOf 600).vMax)) (numVal (buildOf 600).vMax) (numVal (.b32 0x40C00000#32)) = true ∧
    within (negVal (numVal (buildOf 600).vMax)) (numVal (buildOf 600).vMax) (numVal (.b32 0xC0C00000#32)) = true := by decide

/-- Running states without NaN and with a fitting deadline on both sides of the deadband (for ControllerLaws). -/
theorem witness_ControllerLaws :
    Running (stateAt 6 .S1 4) ∧ NoNaN (stateAt 6 .S1 4) ∧ WakeFits (stateAt 6 .S1 4) ∧
    nonneg (iterationOf (stateAt 6 .S1 4)).u ≠ nonneg (numVal (stateAt 6 .S1 4).uPrev) ∧
    nonneg (iterationOf (stateAt 6 .S1 0)).u = nonneg (numVal (stateAt 6 .S1 0).uPrev) := by
  refine ⟨⟨by decide, rfl, rfl, rfl⟩, ?_⟩
  unfold NoNaN WakeFits
  decide

theorem witness_VelocityOfSmallDeltas : (16777216 : Int).natAbs ≤ 2 ^ fmtPrec .binary32 ∧ buildValid (buildOf 600) = true := by decide

theorem witness_MinusOneNegatesExactly :
    numFmtOf (.b32 0x00000001#32) = .binary32 ∧ isFinite (numVal (.b32 0x00000001#32)) = true := by decide

/-- A good state of the default build with a small E_PREV, and an event that it performs. -/
theorem witness_DefaultBuildStaysFinite :
    defaultParameters (stateAt 600 .S1 5).build ∧ Good (stateAt 600 .S1 5) ∧ SmallError (stateAt 600 .S1 5) ∧
    exec .tick (stateAt 600 .S1 5) = .next (tickEvent (stateAt 600 .S1 5)) :=
  ⟨⟨600, 10, 950000000, .little, rfl⟩, ⟨rfl, rfl, by decide, rfl, rfl, rfl, rfl⟩, ⟨false, 0, rfl, by decide⟩, rfl⟩

/-- A tie of RoundingIsNearestEven: 2^24 + 1 lies midway between two values and goes to the even one. -/
theorem witness_RoundingIsNearestEven :
    16777218 % 2 ^ dropBits .binary32 16777218 = 0 ∧ roundMag .binary32 16777217 1 = 16777216 := by decide

theorem witness_NumPatternsRoundTrip : isNaN (numVal (.b32 0xFF800000#32)) = false := by decide

theorem witness_StepKeepsGoodState :
    Inv (stateAt 600 .S1 0) ∧ step (stateAt 600 .S1 0) = .next (stateAt 600 .S1 0) :=
  ⟨fun _ => ⟨rfl, rfl, by decide, rfl, rfl, rfl, rfl⟩, rfl⟩

theorem witness_SlipAdmitsMore :
    admitted false [⟨0, .reset⟩, ⟨5, .edge .A true⟩, ⟨5, .tick⟩] [⟨0, .reset⟩, ⟨5, .tick⟩, ⟨5, .edge .A true⟩] = true ∧
    [Timed.mk 0 .reset, ⟨5, .edge .A true⟩, ⟨5, .tick⟩].Pairwise (fun x y => x.time ≤ y.time) ∧
    (∀ x ∈ [Timed.mk 5 (.edge .A true), ⟨5, .tick⟩], x.event ≠ .reset) ∧
    (∀ x ∈ [Timed.mk 5 .tick, ⟨5, .edge .A true⟩], x.event ≠ .reset) := by decide

/-- Two traces with a RESET (for ResetsCutTheTrace). -/
theorem witness_ResetsCutTheTrace :
    (∀ x ∈ [Timed.mk 1 (.edge .A true), ⟨2, .tick⟩], x.event ≠ .reset) ∧ (Timed.mk 3 .reset).event = .reset ∧
    admitted true ([⟨1, .edge .A true⟩, ⟨2, .tick⟩] ++ ⟨3, .reset⟩ :: [⟨4, .tick⟩])
      ([⟨2, .tick⟩, ⟨1, .edge .A true⟩] ++ ⟨3, .reset⟩ :: [⟨4, .tick⟩]) = true := by decide

/-- The divisors of OperatorsRoundTheExactResultOnce and SpecialOperandsFollowIeee are met by the magnitude of 6.0. -/
theorem witness_OperatorsRoundTheExactResultOnce :
    numVal (.b32 0x40C00000#32) = .fin false (6 * 2 ^ 149) ∧ 0 < 6 * 2 ^ 149 := by decide

/-- The least n of TicksTextExpands, and its text. -/
theorem witness_TicksTextExpands : 1 ≤ 1 ∧ Nat.toDigits 10 1 = ['1'] := by decide

theorem witness_TelemetryFrameIsFaithful : numFmtOf (.b32 0#32) = numFmtOf (.b32 0x42A00000#32) := rfl

end Sys2Proof.Tests
end

section
/-!
PROOFS of the statements of 00_scope.md: invalid builds, the wrap of CNT, comparisons, the default patterns, the
special operands, rounding to nearest with ties to even, the exact results of the operators, and NUM patterns.
-/

namespace Sys2Proof.Machine

/-! ### Invalid builds -/

theorem unlessStopped_of_invalid {s : State} {k : Host.Outcome State Fault Refusal} (h : buildValid s.build = false) :
    unlessStopped s k = .refused .invalidBuild := by
  simp [unlessStopped, h]

theorem exec_of_invalid {s : State} (h : buildValid s.build = false) (i : Instr) : exec i s = .refused .invalidBuild := by
  cases i <;> exact unlessStopped_of_invalid h

theorem step_of_invalid {s : State} (h : buildValid s.build = false) : step s = .refused .invalidBuild := by
  unfold step
  cases presented s with
  | nothing => exact unlessStopped_of_invalid h
  | event i rest => exact exec_of_invalid (s := setTrace rest s) h i
  | reserved rest => exact unlessStopped_of_invalid (s := setTrace rest s) h

/-- Each condition of 00_scope.md R10 that a valid build meets, in the order in which the obligation lists their failures. -/
theorem buildValid_conditions {b : Build} (h : buildValid b = true) :
    2 ≤ b.cntW ∧ 1 ≤ b.cpr ∧ 1 ≤ b.periodNs ∧ b.t0Nsec < 10 ^ 9 ∧
    isFinite (numVal b.sp) = true ∧ isFinite (numVal b.b0) = true ∧ isFinite (numVal b.b1) = true ∧
    isFinite (numVal b.a1) = true ∧ isFinite (numVal b.vMax) = true ∧ isFinite (kVel b) = true ∧
    gtVal (numVal b.vMax) posZero = true := by
  simp only [buildValid, paramFinite, Bool.and_eq_true, decide_eq_true_eq] at h
  tauto

/-- Settles O8: a build that breaks a condition is not valid, and an invalid build has no step. -/
theorem invalidBuildIsRefused : Obligations.InvalidBuildIsRefused := by
  intro s hbad
  have hinv : buildValid s.build = false := by
    by_contra hv
    obtain ⟨hcnt, hcpr, hper, hns, hsp, hb0, hb1, ha1, hvm, hk, hgt⟩ := buildValid_conditions (Bool.eq_true_of_not_eq_false hv)
    rw [hsp, hb0, hb1, ha1, hvm, hk, hgt] at hbad
    simp only [Bool.true_eq_false, or_false] at hbad
    omega
  exact ⟨exec_of_invalid hinv, step_of_invalid hinv⟩

/-! ### The wrap -/

theorem inIntN_iff (n : Nat) (x : Int) : inIntN n x = true ↔ -(2 ^ (n - 1)) ≤ x ∧ x < 2 ^ (n - 1) := by
  simp [inIntN]

/-- The values of intN are fewer than 2^N apart, so congruent ones are equal (00_scope.md R12). -/
theorem eq_of_inIntN_of_emod_eq {n : Nat} (hn : 1 ≤ n) {x y : Int} (hx : inIntN n x = true) (hy : inIntN n y = true)
    (h : x % 2 ^ n = y % 2 ^ n) : x = y := by
  rw [← wrapInt_of_inIntN hn hx, ← wrapInt_of_inIntN hn hy]
  unfold wrapInt
  rw [Int.add_emod, h, ← Int.add_emod]

theorem wrapInt_eq_iff {n : Nat} (hn : 1 ≤ n) (x y : Int) : y = wrapInt n x ↔ inIntN n y = true ∧ (y - x) % 2 ^ n = 0 := by
  rw [← Int.emod_eq_emod_iff_emod_sub_eq_zero, ← wrapInt_emod n x]
  constructor
  · rintro rfl
    exact ⟨wrapInt_inIntN hn x, rfl⟩
  · rintro ⟨hy, hmod⟩
    exact eq_of_inIntN_of_emod_eq hn hy (wrapInt_inIntN hn x) hmod

/-- Above the top of intN lies its bottom (43_counter_sync.md R171). -/
theorem wrapInt_max_add_one {n : Nat} (hn : 1 ≤ n) : wrapInt n (2 ^ (n - 1) - 1 + 1) = -(2 ^ (n - 1)) := by
  have hhalf := two_pow_half hn
  have hpos : (0 : Int) < 2 ^ (n - 1) := by positivity
  exact ((wrapInt_eq_iff hn _ _).2 ⟨(inIntN_iff n _).2 (by omega), Int.emod_eq_zero_of_dvd ⟨-1, by omega⟩⟩).symm

/-- Below the bottom of intN lies its top (43_counter_sync.md R171). -/
theorem wrapInt_min_sub_one {n : Nat} (hn : 1 ≤ n) : wrapInt n (-(2 ^ (n - 1)) + -1) = 2 ^ (n - 1) - 1 := by
  have hhalf := two_pow_half hn
  have hpos : (0 : Int) < 2 ^ (n - 1) := by positivity
  exact ((wrapInt_eq_iff hn _ _).2 ⟨(inIntN_iff n _).2 (by omega), Int.emod_eq_zero_of_dvd ⟨1, by omega⟩⟩).symm

/-- Settles O23: two values of intN that are congruent modulo 2^N are equal, and the value one beyond either end is
congruent to the other end. -/
theorem wrapIsTheCongruentValue : Obligations.WrapIsTheCongruentValue :=
  ⟨fun _ x y hn => wrapInt_eq_iff hn x y,
    fun s hw hs => by rw [atomicAdd_cnt, hs, wrapInt_max_add_one hw],
    fun s hw hs => by rw [atomicAdd_cnt, hs, wrapInt_min_sub_one hw]⟩

/-! ### Comparisons -/

theorem nonneg_fin_iff (neg : Bool) (m : Nat) : nonneg (.fin neg m) = true ↔ neg = false ∨ m = 0 := by
  cases neg <;> simp [nonneg, geVal, isNaN, posZero, ltVal, signedMag]

/-- Settles O42, clause by clause from the table of `ltVal`. -/
theorem comparisonsAreIeee : Obligations.ComparisonsAreIeee := by
  refine ⟨fun x => ?nan, fun sa ma sb mb => decide_eq_true_iff, fun s m => ⟨rfl, rfl, rfl, rfl⟩, fun sa sb => ?infs,
    fun a b => rfl, fun a b ha hb => ?ge, nonneg_fin_iff, fun neg => ?nonnegInf⟩
  case nan => cases x <;> exact ⟨rfl, rfl, rfl, rfl, rfl, rfl⟩
  case infs => simp [ltVal]
  case ge => simp [geVal, ha, hb]
  case nonnegInf => cases neg <;> decide

/-! ### The default patterns -/

/-- Settles O43, by evaluating each conversion. -/
theorem defaultPatternsAreRoundedLiterals : Obligations.DefaultPatternsAreRoundedLiterals :=
  ⟨by decide, by decide, by decide, by decide, by decide⟩

/-! ### Special operands -/

theorem flVal_zero (f : NumFmt) (neg : Bool) {den : Nat} (hd : 0 < den) : flVal f neg 0 den = .fin neg 0 := by
  simpa using flVal_exact f neg hd (representable_zero f neg)

theorem signedMag_not (neg : Bool) (m : Nat) : signedMag (!neg) m = -signedMag neg m := by
  cases neg <;> simp [signedMag]

theorem addVal_neg_self (f : NumFmt) (s : Bool) (m : Nat) : addVal f (.fin s m) (.fin (!s) m) = .fin false 0 := by
  simp [addVal, addFin, signedMag_not]

theorem addVal_zero_zero (f : NumFmt) (s : Bool) : addVal f (.fin s 0) (.fin s 0) = .fin s 0 := by
  simp [addVal, addFin, signedMag]

theorem mulVal_zero_left (f : NumFmt) (sa sb : Bool) (m : Nat) : mulVal f (.fin sa 0) (.fin sb m) = .fin (sa != sb) 0 := by
  rw [mulVal, Nat.zero_mul, flVal_zero f _ (Nat.two_pow_pos _)]

theorem mulVal_zero_right (f : NumFmt) (sa sb : Bool) (m : Nat) : mulVal f (.fin sa m) (.fin sb 0) = .fin (sa != sb) 0 := by
  rw [mulVal, Nat.mul_zero, flVal_zero f _ (Nat.two_pow_pos _)]

theorem divVal_zero_left (f : NumFmt) (sa sb : Bool) {m : Nat} (hm : 0 < m) :
    divVal f (.fin sa 0) (.fin sb m) = .fin (sa != sb) 0 := by
  rw [divVal, if_neg hm.ne', Nat.zero_mul, flVal_zero f _ hm]

/-- Settles O52, family by family of its clauses. -/
theorem specialOperandsFollowIeee : Obligations.SpecialOperandsFollowIeee := by
  refine fun f => ⟨fun s m => ⟨addVal_neg_self f s m, addVal_neg_self f s m, addVal_zero_zero f s, ?_⟩,
    fun sa sb m => ⟨mulVal_zero_left f sa sb m, mulVal_zero_right f sa sb m, divVal_zero_left f sa sb⟩,
    fun x => ?nan, fun s sb m => ?infAdd, fun sa sb m hm => ?infMul, fun sa sb m => ⟨rfl, rfl, rfl, rfl, rfl, rfl, rfl⟩⟩
  · simpa [subVal, negVal] using addVal_zero_zero f s
  case nan => cases x <;> exact ⟨rfl, rfl, rfl, rfl, rfl, rfl, rfl, rfl⟩
  case infAdd => cases s <;> exact ⟨rfl, rfl, rfl, rfl, rfl, rfl, rfl, rfl⟩
  case infMul => simp [mulVal, divVal, hm.ne']

/-! ### Rounding to nearest -/

/-- `roundDiv` takes the nearer neighbour, and of two equally near ones the even one. -/
theorem roundDiv_cases (num D : Nat) :
    (roundDiv num D = num / D ∧ 2 * num ≤ num / D * D + (num / D + 1) * D ∧
      (2 * num = num / D * D + (num / D + 1) * D → num / D % 2 = 0)) ∨
    (roundDiv num D = num / D + 1 ∧ num / D * D + (num / D + 1) * D ≤ 2 * num ∧
      (2 * num = num / D * D + (num / D + 1) * D → (num / D + 1) % 2 = 0)) := by
  have hsum : num / D * D + (num / D + 1) * D = 2 * (num / D * D) + D := by ring
  have hnum := Nat.div_add_mod' num D
  rw [hsum]
  unfold roundDiv
  split_ifs with hlo hhi heven
  · exact .inl ⟨rfl, by omega, by omega⟩
  · exact .inr ⟨rfl, by omega, by omega⟩
  · exact .inl ⟨rfl, by omega, fun _ => heven⟩
  · exact .inr ⟨rfl, by omega, by omega⟩

/-- No magnitude of the format lies strictly between the two neighbours of an exact one of integer part `q`. -/
theorem fitsPrec_outside (f : NumFmt) (q : Nat) {m : Nat} (hm : fitsPrec f m) :
    m ≤ q / 2 ^ dropBits f q * 2 ^ dropBits f q ∨ (q / 2 ^ dropBits f q + 1) * 2 ^ dropBits f q ≤ m := by
  by_cases hlo : m ≤ q / 2 ^ dropBits f q * 2 ^ dropBits f q
  · exact .inl hlo
  · right
    have hdrop : dropBits f q ≤ dropBits f m := by
      rcases Nat.eq_zero_or_pos (dropBits f q) with h0 | hpos
      · omega
      · have hfull : 2 ^ (fmtPrec f - 1) ≤ q / 2 ^ dropBits f q :=
          (Nat.le_div_iff_mul_le (Nat.two_pow_pos _)).2 (by rw [← pow_add]; exact two_pow_le_of_dropBits_pos f hpos)
        have hbig : 2 ^ (fmtPrec f - 1 + dropBits f q) ≤ m := by
          rw [pow_add]
          exact le_trans (Nat.mul_le_mul_right _ hfull) (by omega)
        have hlen := (lt_bitLength_iff m _).2 hbig
        unfold dropBits at hlen ⊢
        omega
    obtain ⟨k, rfl⟩ := Dvd.dvd.trans (pow_dvd_pow 2 hdrop) hm
    rw [Nat.mul_comm _ k] at hlo ⊢
    exact Nat.mul_le_mul_right _ (Nat.lt_of_mul_lt_mul_right (Nat.lt_of_not_le hlo))

/-- The distance of an exact magnitude `num / den` from a magnitude, times `den`. -/
def gap (num den m : Nat) : Nat := ((num : Int) - m * den).natAbs

theorem gap_of_le {num den m : Nat} (h : m * den ≤ num) : gap num den m = num - m * den := by
  unfold gap
  rw [← Nat.cast_mul]
  omega

theorem gap_of_ge {num den m : Nat} (h : num ≤ m * den) : gap num den m = m * den - num := by
  unfold gap
  rw [← Nat.cast_mul]
  omega

/-- A magnitude outside two neighbours of the exact one is no nearer than either the lower neighbour, when it lies below,
or the upper one, when it lies above; and as near only when it is that neighbour. -/
theorem gap_outside {num den lo hi m : Nat} (hd : 0 < den) (hlow : lo * den ≤ num) (hhigh : num < hi * den)
    (hm : m ≤ lo ∨ hi ≤ m) :
    (gap num den lo ≤ gap num den m ∧ (gap num den lo = gap num den m → m = lo)) ∨
    (gap num den hi ≤ gap num den m ∧ (gap num den hi = gap num den m → m = hi)) := by
  rcases hm with hm | hm
  · left
    have hle := Nat.mul_le_mul_right den hm
    rw [gap_of_le hlow, gap_of_le (hle.trans hlow)]
    exact ⟨by omega, fun he => Nat.eq_of_mul_eq_mul_right hd (by omega)⟩
  · right
    have hle := Nat.mul_le_mul_right den hm
    rw [gap_of_ge hhigh.le, gap_of_ge (hhigh.le.trans hle)]
    exact ⟨by omega, fun he => Nat.eq_of_mul_eq_mul_right hd (by omega)⟩

/-- The rounded magnitude is nearest among those of the format, and of two equally near ones its significand (in the
unit of the exact magnitude's precision) is even. -/
theorem roundMag_nearest (f : NumFmt) (num : Nat) {den m : Nat} (hd : 0 < den) (hm : fitsPrec f m) :
    gap num den (roundMag f num den) ≤ gap num den m ∧
    (gap num den (roundMag f num den) = gap num den m → m ≠ roundMag f num den →
      roundDiv num (den * 2 ^ dropBits f (num / den)) % 2 = 0) := by
  have hout := fitsPrec_outside f (num / den) hm
  have hcases := roundDiv_cases num (den * 2 ^ dropBits f (num / den))
  have hlow := Nat.div_mul_le_self num (den * 2 ^ dropBits f (num / den))
  have hhigh := Nat.lt_mul_of_div_lt (Nat.lt_succ_self (num / (den * 2 ^ dropBits f (num / den)))) (by positivity)
  unfold roundMag
  rw [← div_mul_two_pow] at hout
  generalize num / (den * 2 ^ dropBits f (num / den)) = c at *
  generalize 2 ^ dropBits f (num / den) = P at *
  have hscale : ∀ k, k * (den * P) = k * P * den := fun k => by ring
  simp only [hscale, Nat.succ_eq_add_one] at hcases hlow hhigh
  have hgap := gap_outside hd hlow hhigh hout
  have hgapLow := gap_of_le hlow
  have hgapHigh := gap_of_ge hhigh.le
  rcases hcases with ⟨hr, hhalf, heven⟩ | ⟨hr, hhalf, heven⟩ <;> rw [hr]
  · rcases hgap with ⟨hle, heq⟩ | ⟨hle, heq⟩
    · exact ⟨hle, fun he hne => absurd (heq he) hne⟩
    · exact ⟨by omega, fun he _ => heven (by omega)⟩
  · rcases hgap with ⟨hle, heq⟩ | ⟨hle, heq⟩
    · exact ⟨by omega, fun he _ => heven (by omega)⟩
    · exact ⟨hle, fun he hne => absurd (heq he) hne⟩

/-- Settles O40: the result fits, and lies between the same two neighbours as the exact magnitude. -/
theorem roundingIsNearestEven : Obligations.RoundingIsNearestEven := by
  intro f num den m hd hm
  obtain ⟨hnear, heven⟩ := roundMag_nearest f num hd (Nat.dvd_of_mod_eq_zero hm)
  refine ⟨Nat.mod_eq_zero_of_dvd (roundMag_fits f num den), hnear, fun he hne => ?_⟩
  rw [roundMag, Nat.mul_div_cancel _ (Nat.two_pow_pos _)]
  exact heven he hne

/-! ### Significands in their own precision -/

theorem fmtPrec_bounds (f : NumFmt) : 2 ≤ fmtPrec f ∧ fmtPrec f + 1 ≤ fmtTopExp f := by cases f <;> decide

/-- A significand of the precision's full length times a power of two drops exactly that power. -/
theorem dropBits_shift (f : NumFmt) {n k : Nat} (hlo : 2 ^ (fmtPrec f - 1) ≤ n) (hhi : n < 2 ^ fmtPrec f) :
    dropBits f (n * 2 ^ k) = k := by
  have hp := fmtPrec_pos f
  have hle : bitLength (n * 2 ^ k) ≤ fmtPrec f + k :=
    (bitLength_le_iff _ _).2 (by rw [pow_add]; exact Nat.mul_lt_mul_of_pos_right hhi (Nat.two_pow_pos k))
  have hge : fmtPrec f - 1 + k < bitLength (n * 2 ^ k) :=
    (lt_bitLength_iff _ _).2 (by rw [pow_add]; exact Nat.mul_le_mul_right _ hlo)
  unfold dropBits
  omega

/-- An even significand of at most the precision's length stays even in its magnitude's own precision, one place higher
when it is the next power of two. -/
theorem own_significand_even (f : NumFmt) {c k : Nat} (hle : c ≤ 2 ^ fmtPrec f)
    (hge : 0 < k → 2 ^ (fmtPrec f - 1) ≤ c) (heven : c % 2 = 0) :
    c * 2 ^ k / 2 ^ dropBits f (c * 2 ^ k) % 2 = 0 := by
  have hp := (fmtPrec_bounds f).1
  rcases Nat.lt_or_eq_of_le hle with hlt | rfl
  · have hdrop : dropBits f (c * 2 ^ k) = k := by
      rcases Nat.eq_zero_or_pos k with rfl | hk
      · exact Nat.le_zero.1 (dropBits_le_of_lt f (by simpa using hlt))
      · exact dropBits_shift f (hge hk) hlt
    rwa [hdrop, Nat.mul_div_cancel _ (Nat.two_pow_pos k)]
  · have hcarry : 2 ^ fmtPrec f * 2 ^ k = 2 ^ (fmtPrec f - 1) * 2 ^ (k + 1) := by
      rw [← pow_add, ← pow_add]
      congr 1
      omega
    rw [hcarry, dropBits_shift f le_rfl (Nat.pow_lt_pow_right (by omega) (by omega)),
      Nat.mul_div_cancel _ (Nat.two_pow_pos _)]
    exact Nat.mod_eq_zero_of_dvd (dvd_pow_self 2 (by omega))

theorem roundMag_own_significand_even (f : NumFmt) (num den : Nat)
    (h : roundDiv num (den * 2 ^ dropBits f (num / den)) % 2 = 0) :
    roundMag f num den / 2 ^ dropBits f (roundMag f num den) % 2 = 0 := by
  refine own_significand_even f (roundMag_significand_le f num den) (fun hpos => ?_) h
  refine le_trans ?_ (roundDiv_bounds _ _).1
  rw [div_mul_two_pow, Nat.le_div_iff_mul_le (Nat.two_pow_pos _), ← pow_add]
  exact two_pow_le_of_dropBits_pos f hpos

/-! ### Overflow -/

/-- The largest finite magnitude of a format. -/
def maxMag (f : NumFmt) : Nat := (2 ^ fmtPrec f - 1) * 2 ^ (fmtTopExp f - fmtPrec f)

/-- `overflowBound` in units of the least positive value. -/
def overflowMag (f : NumFmt) : Nat := (2 ^ (fmtPrec f + 1) - 1) * 2 ^ (fmtTopExp f - fmtPrec f - 1)

/-- The next power of two is one unit in the last place above the largest finite magnitude. -/
theorem maxMag_add_ulp (f : NumFmt) : maxMag f + 2 ^ (fmtTopExp f - fmtPrec f) = 2 ^ fmtTopExp f := by
  have hp := (fmtPrec_bounds f).2
  rw [maxMag, ← Nat.succ_mul, Nat.succ_eq_add_one, Nat.sub_add_cancel Nat.one_le_two_pow, ← pow_add]
  congr 1
  omega

/-- The overflow bound is midway between the largest finite magnitude and the next power of two. -/
theorem two_mul_overflowMag (f : NumFmt) : 2 * overflowMag f = maxMag f + 2 ^ fmtTopExp f := by
  have hp := (fmtPrec_bounds f).2
  have hulp : 2 * 2 ^ (fmtTopExp f - fmtPrec f - 1) = 2 ^ (fmtTopExp f - fmtPrec f) := by
    rw [← pow_succ', Nat.sub_add_cancel (by omega)]
  have hbound : 2 * overflowMag f + 2 ^ (fmtTopExp f - fmtPrec f) = 2 * 2 ^ fmtTopExp f := by
    rw [overflowMag, ← hulp, ← Nat.mul_add, ← Nat.succ_mul, Nat.succ_eq_add_one,
      Nat.sub_add_cancel Nat.one_le_two_pow, ← pow_add]
    congr 2
    omega
  have := maxMag_add_ulp f
  omega

theorem maxMag_lt (f : NumFmt) : maxMag f < 2 ^ fmtTopExp f := by
  rw [← maxMag_add_ulp]
  exact Nat.lt_add_of_pos_right (Nat.two_pow_pos _)

theorem dropBits_maxMag (f : NumFmt) : dropBits f (maxMag f) = fmtTopExp f - fmtPrec f :=
  dropBits_shift f (Nat.le_sub_one_of_lt (Nat.pow_lt_pow_right (by omega) (by have := fmtPrec_pos f; omega)))
    (Nat.sub_one_lt (Nat.two_pow_pos _).ne')

theorem fitsPrec_maxMag (f : NumFmt) : fitsPrec f (maxMag f) := fitsPrec_shift f (Nat.sub_le _ _)

theorem maxMag_significand_odd (f : NumFmt) : maxMag f / 2 ^ dropBits f (maxMag f) % 2 = 1 := by
  rw [dropBits_maxMag, maxMag, Nat.mul_div_cancel _ (Nat.two_pow_pos _)]
  cases f <;> rfl

/-- Between the largest finite magnitude and the next power of two lies no magnitude of the format. -/
theorem le_maxMag_of_fitsPrec (f : NumFmt) {m : Nat} (hm : fitsPrec f m) (hlt : m < 2 ^ fmtTopExp f) : m ≤ maxMag f := by
  have hout := fitsPrec_outside f (maxMag f) hm
  rw [Nat.div_mul_cancel (fitsPrec_maxMag f), Nat.add_mul, Nat.div_mul_cancel (fitsPrec_maxMag f), dropBits_maxMag] at hout
  have htop := maxMag_add_ulp f
  omega

/-- An exact magnitude rounds to one beyond the largest finite exactly from the midpoint on, the tie among them. -/
theorem roundMag_lt_top_iff (f : NumFmt) (num : Nat) {den : Nat} (hd : 0 < den) :
    roundMag f num den < 2 ^ fmtTopExp f ↔ num < overflowMag f * den := by
  have hmid : 2 * (overflowMag f * den) = maxMag f * den + 2 ^ fmtTopExp f * den := by
    rw [← Nat.mul_assoc, two_mul_overflowMag, Nat.add_mul]
  have hmax : maxMag f * den < 2 ^ fmtTopExp f * den := Nat.mul_lt_mul_of_pos_right (maxMag_lt f) hd
  constructor
  · intro hlt
    by_contra hge
    have htop : num < 2 ^ fmtTopExp f * den := by
      by_contra h
      exact absurd (le_roundMag f hd (fitsPrec_two_pow f _) (Nat.le_of_not_lt h)) (Nat.not_le_of_lt hlt)
    have hr : maxMag f = roundMag f num den :=
      le_antisymm (le_roundMag f hd (fitsPrec_maxMag f) (by omega)) (le_maxMag_of_fitsPrec f (roundMag_fits f num den) hlt)
    obtain ⟨hnear, heven⟩ := roundMag_nearest f num hd (fitsPrec_two_pow f (fmtTopExp f))
    rw [gap_of_le (by rw [← hr]; omega), gap_of_ge htop.le, ← hr] at hnear heven
    have hsig := roundMag_own_significand_even f num den (heven (by omega) (maxMag_lt f).ne')
    rw [← hr, maxMag_significand_odd] at hsig
    exact absurd hsig one_ne_zero
  · intro hlt
    by_contra hge
    have hr : roundMag f num den = 2 ^ fmtTopExp f :=
      le_antisymm (roundMag_le f hd (fitsPrec_two_pow f _) (by omega)) (Nat.le_of_not_lt hge)
    have hlow : maxMag f * den ≤ num := by
      by_contra h
      have := roundMag_le f hd (fitsPrec_maxMag f) (Nat.le_of_not_le h)
      have := maxMag_lt f
      omega
    have hnear := (roundMag_nearest f num hd (fitsPrec_maxMag f)).1
    rw [hr, gap_of_ge (by omega), gap_of_le hlow] at hnear
    omega

/-! ### `fl` of exact rationals -/

/-- An exact quotient of two magnitudes as a rational: the factor 1 or -1 of its sign, and the quotient in units. -/
theorem exactVal_div (f : NumFmt) (neg : Bool) (num den : Nat) :
    exactVal f neg num / den = (if neg then -1 else 1) * (num / (den * 2 ^ fmtUnitExp f)) := by
  cases neg <;> simp only [exactVal, signedMag] <;> push_cast <;> simp [div_div, mul_comm, neg_div]

theorem abs_exactVal_div (f : NumFmt) (neg : Bool) (num den : Nat) :
    |exactVal f neg num / den| = num / (den * 2 ^ fmtUnitExp f) := by
  rw [exactVal_div, abs_mul, abs_of_nonneg (by positivity : (0 : ℚ) ≤ num / (den * 2 ^ fmtUnitExp f))]
  cases neg <;> simp

/-- The distance of an exact result from a value of its sign is the gap of their magnitudes. -/
theorem abs_exactVal_div_sub (f : NumFmt) (neg : Bool) (num : Nat) {den : Nat} (hd : 0 < den) (m : Nat) :
    |exactVal f neg num / den - exactVal f neg m| = gap num den m / (den * 2 ^ fmtUnitExp f) := by
  have hden : (den : ℚ) ≠ 0 := by positivity
  have hm : exactVal f neg m = (if neg then -1 else 1) * (m * den / (den * 2 ^ fmtUnitExp f)) := by
    rw [mul_comm (m : ℚ), mul_div_mul_left _ _ hden]
    simpa using exactVal_div f neg m 1
  rw [exactVal_div, hm, ← mul_sub, ← sub_div, abs_mul, abs_div, gap, Nat.cast_natAbs,
    abs_of_nonneg (by positivity : (0 : ℚ) ≤ den * 2 ^ fmtUnitExp f)]
  cases neg <;> simp

theorem overflowBound_eq (f : NumFmt) : overflowBound f = overflowMag f / 2 ^ fmtUnitExp f := by
  rw [overflowBound, overflowMag, Nat.cast_mul, Nat.cast_sub Nat.one_le_two_pow]
  push_cast
  rfl

theorem abs_lt_overflowBound_iff (f : NumFmt) (neg : Bool) (num : Nat) {den : Nat} (hd : 0 < den) :
    |exactVal f neg num / den| < overflowBound f ↔ num < overflowMag f * den := by
  have hden : (0 : ℚ) < den := by positivity
  rw [abs_exactVal_div, overflowBound_eq, ← div_div, div_lt_div_iff_of_pos_right (by positivity), div_lt_iff₀ hden]
  norm_cast

theorem exactVal_div_nonneg (f : NumFmt) (num den : Nat) : 0 ≤ exactVal f false num / den := by
  rw [exactVal_div, if_neg Bool.false_ne_true, one_mul]
  positivity

theorem exactVal_div_nonpos (f : NumFmt) (num den : Nat) : exactVal f true num / den ≤ 0 := by
  rw [exactVal_div, if_pos rfl, neg_one_mul, neg_nonpos]
  positivity

theorem eq_false_of_exactVal_div_pos {f : NumFmt} {neg : Bool} {num den : Nat} (h : 0 < exactVal f neg num / den) :
    neg = false := by
  cases neg with
  | false => rfl
  | true => exact absurd h (exactVal_div_nonpos f num den).not_gt

theorem eq_true_of_exactVal_div_neg {f : NumFmt} {neg : Bool} {num den : Nat} (h : exactVal f neg num / den < 0) :
    neg = true := by
  cases neg with
  | true => rfl
  | false => exact absurd h (exactVal_div_nonneg f num den).not_gt

theorem overflowBound_pos (f : NumFmt) : 0 < overflowBound f := by
  rw [overflowBound_eq]
  have : 0 < overflowMag f := by
    have := two_mul_overflowMag f
    have := maxMag_lt f
    omega
  positivity

/-- `fl` of a sign and an exact magnitude is that rational rounded once (00_scope.md R13). -/
theorem flVal_isFl (f : NumFmt) (neg : Bool) (num : Nat) {den : Nat} (hd : 0 < den) :
    IsFl f (exactVal f neg num / den) (flVal f neg num den) := by
  have hover := abs_lt_overflowBound_iff f neg num hd
  rw [← roundMag_lt_top_iff f num hd, ← bitLength_le_iff] at hover
  rcases flVal_cases f neg num den with ⟨hfl, hfin⟩ | ⟨hfl, hinf⟩ <;> rw [hfl]
  · refine ⟨hover.2 hfin, Nat.mod_eq_zero_of_dvd (roundMag_fits f num den), eq_false_of_exactVal_div_pos,
      eq_true_of_exactVal_div_neg, fun m hm => ?_⟩
    obtain ⟨hnear, heven⟩ := roundMag_nearest f num hd (Nat.dvd_of_mod_eq_zero hm)
    have hscale : (0 : ℚ) < den * 2 ^ fmtUnitExp f := by positivity
    rw [abs_exactVal_div_sub f neg num hd, abs_exactVal_div_sub f neg num hd, div_le_div_iff_of_pos_right hscale,
      div_left_inj' hscale.ne', Nat.cast_le, Nat.cast_inj]
    exact ⟨hnear, fun he hne => roundMag_own_significand_even f num den (heven he hne)⟩
  · have hbound : overflowBound f ≤ |exactVal f neg num / den| := le_of_not_gt (fun h => by have := hover.1 h; omega)
    refine ⟨hbound, fun hneg => ?_, eq_true_of_exactVal_div_neg⟩
    subst hneg
    have hne := abs_pos.1 (lt_of_lt_of_le (overflowBound_pos f) hbound)
    exact lt_of_le_of_ne (exactVal_div_nonpos f num den) hne

/-! ### The operators' exact results -/

theorem signedMag_natAbs (n : Int) : signedMag (decide (n < 0)) n.natAbs = n := by
  by_cases h : n < 0
  · simp [signedMag, h, abs_of_neg h]
  · simp [signedMag, h, abs_of_nonneg (not_lt.1 h)]

theorem signedMag_mul (sa sb : Bool) (ma mb : Nat) : signedMag (sa != sb) (ma * mb) = signedMag sa ma * signedMag sb mb := by
  cases sa <;> cases sb <;> simp [signedMag]

theorem addFin_isFl (f : NumFmt) (sa : Bool) (ma : Nat) (sb : Bool) (mb : Nat) :
    IsFl f (exactVal f sa ma + exactVal f sb mb) (addFin f sa ma sb mb) := by
  have hsum : exactVal f sa ma + exactVal f sb mb = ((signedMag sa ma + signedMag sb mb : Int) : ℚ) / 2 ^ fmtUnitExp f := by
    rw [exactVal, exactVal, ← add_div, Int.cast_add]
  rw [hsum]
  unfold addFin
  generalize signedMag sa ma + signedMag sb mb = n
  simp only
  split_ifs with hz
  · have hfl := flVal_isFl f (sa && sb) 0 one_pos
    rw [flVal_zero f _ one_pos] at hfl
    simpa [hz, exactVal, signedMag] using hfl
  · have hfl := flVal_isFl f (decide (n < 0)) n.natAbs one_pos
    rwa [exactVal, signedMag_natAbs, Nat.cast_one, div_one] at hfl

theorem exactVal_neg (f : NumFmt) (neg : Bool) (m : Nat) : exactVal f (!neg) m = -exactVal f neg m := by
  rw [exactVal, signedMag_not, Int.cast_neg, neg_div, exactVal]

theorem subVal_isFl (f : NumFmt) (sa : Bool) (ma : Nat) (sb : Bool) (mb : Nat) :
    IsFl f (exactVal f sa ma - exactVal f sb mb) (subVal f (.fin sa ma) (.fin sb mb)) := by
  rw [sub_eq_add_neg, ← exactVal_neg]
  exact addFin_isFl f sa ma (!sb) mb

theorem mulVal_isFl (f : NumFmt) (sa : Bool) (ma : Nat) (sb : Bool) (mb : Nat) :
    IsFl f (exactVal f sa ma * exactVal f sb mb) (mulVal f (.fin sa ma) (.fin sb mb)) := by
  have hprod : exactVal f sa ma * exactVal f sb mb = exactVal f (sa != sb) (ma * mb) / (2 ^ fmtUnitExp f : Nat) := by
    simp only [exactVal, signedMag_mul]
    push_cast
    ring
  rw [hprod]
  exact flVal_isFl f _ _ (Nat.two_pow_pos _)

/-- A magnitude that counts whole ones, each of 2^`fmtUnitExp` units, stands for that integer. -/
theorem exactVal_scaled (f : NumFmt) (neg : Bool) (m : Nat) :
    exactVal f neg (m * 2 ^ fmtUnitExp f) = signedMag neg m := by
  rw [exactVal, div_eq_iff (by positivity)]
  cases neg <;> simp [signedMag]

theorem divVal_isFl (f : NumFmt) (sa : Bool) (ma : Nat) (sb : Bool) {mb : Nat} (hb : 0 < mb) :
    IsFl f (exactVal f sa ma / exactVal f sb mb) (divVal f (.fin sa ma) (.fin sb mb)) := by
  have hquot : exactVal f sa ma / exactVal f sb mb = exactVal f (sa != sb) (ma * 2 ^ fmtUnitExp f) / mb := by
    rw [exactVal_scaled, exactVal, exactVal, div_div_div_cancel_right₀ (by positivity)]
    cases sa <;> cases sb <;> simp [signedMag, neg_div, div_neg]
  rw [hquot, divVal, if_neg hb.ne']
  exact flVal_isFl f _ _ hb

theorem intToNum_isFl (f : NumFmt) (n : Int) : IsFl f n (intToNum f n) := by
  have hfl := flVal_isFl f (decide (n < 0)) (n.natAbs * 2 ^ fmtUnitExp f) one_pos
  rwa [exactVal_scaled, signedMag_natAbs, Nat.cast_one, div_one] at hfl

theorem ratioToNum_isFl (f : NumFmt) (p : Nat) {q : Nat} (hq : 0 < q) : IsFl f ((p : ℚ) / q) (ratioToNum f p q) := by
  have hfl := flVal_isFl f false (p * 2 ^ fmtUnitExp f) hq
  rw [exactVal_scaled] at hfl
  rw [ratioToNum, if_neg hq.ne']
  exact hfl

/-- Settles O51: each operator is `fl` of a sign and an exact magnitude whose rational is the exact result. -/
theorem operatorsRoundTheExactResultOnce : Obligations.OperatorsRoundTheExactResultOnce := fun f =>
  ⟨fun neg num _ hd => flVal_isFl f neg num hd, addFin_isFl f, subVal_isFl f, mulVal_isFl f,
    fun sa ma sb _ hb => divVal_isFl f sa ma sb hb, intToNum_isFl f, fun p _ hq => ratioToNum_isFl f p hq⟩

/-! ### Patterns -/

/-- Every pattern of the format's width is put together from a sign, an exponent field and a fraction. -/
theorem exists_fields (f : NumFmt) {n : Nat} (hn : n < 2 ^ fmtWidth f) :
    ∃ (neg : Bool) (e r : Nat), e < 2 ^ fmtExpBits f ∧ r < 2 ^ (fmtPrec f - 1) ∧
      n = (if neg then 2 ^ (fmtWidth f - 1) else 0) + (e * 2 ^ (fmtPrec f - 1) + r) := by
  have hsign : 2 ^ (fmtWidth f - 1) = 2 ^ (fmtPrec f - 1) * 2 ^ fmtExpBits f := by
    rw [(fmt_fields f).1, pow_add, Nat.mul_comm]
  have hwidth : 2 ^ fmtWidth f = 2 * 2 ^ (fmtWidth f - 1) := by rw [← pow_succ']; congr 1; cases f <;> rfl
  have hlow : ∀ l < 2 ^ (fmtWidth f - 1), ∃ e r, e < 2 ^ fmtExpBits f ∧ r < 2 ^ (fmtPrec f - 1) ∧
      l = e * 2 ^ (fmtPrec f - 1) + r := fun l hl =>
    ⟨_, _, Nat.div_lt_of_lt_mul (hsign ▸ hl), Nat.mod_lt l (Nat.two_pow_pos _), (Nat.div_add_mod' l _).symm⟩
  rcases Nat.lt_or_ge n (2 ^ (fmtWidth f - 1)) with hpos | hneg
  · obtain ⟨e, r, he, hr, hl⟩ := hlow n hpos
    exact ⟨false, e, r, he, hr, by rw [if_neg Bool.false_ne_true, Nat.zero_add, hl]⟩
  · obtain ⟨e, r, he, hr, hl⟩ := hlow (n - 2 ^ (fmtWidth f - 1)) (by omega)
    exact ⟨true, e, r, he, hr, by rw [if_pos rfl, ← hl, Nat.add_sub_cancel' hneg]⟩

theorem magBits_subnormal (f : NumFmt) {r : Nat} (hr : r < 2 ^ (fmtPrec f - 1)) : magBits f r = r := by
  have hd : dropBits f r = 0 :=
    Nat.le_zero.1 (dropBits_le_of_lt f (hr.trans_le (Nat.pow_le_pow_right two_pos (by omega))))
  simp [magBits, hd]

theorem magBits_normal (f : NumFmt) {e r : Nat} (he : 0 < e) (hr : r < 2 ^ (fmtPrec f - 1)) :
    magBits f ((2 ^ (fmtPrec f - 1) + r) * 2 ^ (e - 1)) = e * 2 ^ (fmtPrec f - 1) + r := by
  have hp := fmtPrec_pos f
  have htwo : 2 ^ fmtPrec f = 2 ^ (fmtPrec f - 1) * 2 := by rw [← pow_succ, Nat.sub_add_cancel hp]
  obtain ⟨k, rfl⟩ : ∃ k, e = k + 1 := ⟨e - 1, by omega⟩
  rw [Nat.add_sub_cancel, magBits, dropBits_shift f (by omega) (by omega), Nat.mul_div_cancel _ (Nat.two_pow_pos k)]
  ring

/-- A pattern that is no NaN is the pattern of its own value. -/
theorem bitsOfVal_valOfBits (f : NumFmt) {n : Nat} (hn : n < 2 ^ fmtWidth f) (hnan : isNaN (valOfBits f n) = false) :
    bitsOfVal f (valOfBits f n) = n := by
  obtain ⟨neg, e, r, he, hr, rfl⟩ := exists_fields f hn
  rw [valOfBits_fields f neg he hr] at hnan ⊢
  by_cases hmax : e = 2 ^ fmtExpBits f - 1
  · rw [if_pos hmax] at hnan ⊢
    by_cases hfrac : r = 0
    · rw [if_pos hfrac, bitsOfVal, ← hmax, hfrac, Nat.add_zero]
    · rw [if_neg hfrac] at hnan
      cases hnan
  · rw [if_neg hmax]
    by_cases hzero : e = 0
    · rw [if_pos hzero, bitsOfVal, magBits_subnormal f hr, hzero, Nat.zero_mul, Nat.zero_add]
    · rw [if_neg hzero, bitsOfVal, magBits_normal f (Nat.pos_of_ne_zero hzero) hr]

theorem numOf_numVal {x : NumBits} (h : isNaN (numVal x) = false) : numOf (numFmtOf x) (numVal x) = x := by
  cases x with
  | b32 w => exact congrArg NumBits.b32 ((congrArg (BitVec.ofNat 32) (bitsOfVal_valOfBits .binary32 w.isLt h)).trans (by simp))
  | b64 w => exact congrArg NumBits.b64 ((congrArg (BitVec.ofNat 64) (bitsOfVal_valOfBits .binary64 w.isLt h)).trans (by simp))

/-- Settles O41: a pattern is determined by its fields, and every operator's result is a value of the format. -/
theorem numPatternsRoundTrip : Obligations.NumPatternsRoundTrip :=
  ⟨fun _ h => numOf_numVal h, fun f a b =>
    ⟨numVal_numOf f (addVal_representable f a b), numVal_numOf f (subVal_representable f a b),
      numVal_numOf f (mulVal_representable f a b), numVal_numOf f (divVal_representable f a b)⟩⟩

end Sys2Proof.Machine
end

section
/-!
PROOFS of the statements of 10_state.md: what a step performs, marked states, and the state invariant at reset and
along steps.
-/

namespace Sys2Proof.Machine

/-! ### The event a step performs -/

theorem presented_of_decode {s : State} {w : EventWord} {rest : List EventWord} {i : Instr} (ht : s.trace = w :: rest)
    (hd : decode w = .ok i) : presented s = .event i rest := by
  simp [presented, decodeBytes, ht, hd]

/-- Settles O1: the word is presented as that event. -/
theorem stepPerformsDecodedEvent : Obligations.StepPerformsDecodedEvent := by
  intro s w rest i ht hd
  rw [step, presented_of_decode ht hd]

/-! ### Marked states -/

/-- The check that every event passes gives a marked state no next state (10_state.md R29). -/
theorem unlessStopped_ne_next_of_marked {s : State} (h : s.faulted ≠ none ∨ s.refused ≠ none)
    (k : Host.Outcome State Fault Refusal) (t : State) : unlessStopped s k ≠ .next t := by
  unfold unlessStopped
  cases hf : s.faulted with
  | some f => split <;> simp
  | none =>
    cases hr : s.refused with
    | some r => split <;> simp
    | none => simp [hf, hr] at h

theorem exec_ne_next_of_marked {s : State} (h : s.faulted ≠ none ∨ s.refused ≠ none) (i : Instr) (t : State) :
    exec i s ≠ .next t := by
  cases i <;> exact unlessStopped_ne_next_of_marked h _ t

theorem step_ne_next_of_marked {s : State} (h : s.faulted ≠ none ∨ s.refused ≠ none) (t : State) : step s ≠ .next t := by
  unfold step
  cases presented s with
  | nothing => exact unlessStopped_ne_next_of_marked h _ t
  | event i rest => exact exec_ne_next_of_marked (s := setTrace rest s) h i t
  | reserved rest => exact unlessStopped_ne_next_of_marked (s := setTrace rest s) h _ t

/-- Settles O6: every event and the idle step pass the one check of the marks. -/
theorem markedStateHasNoStep : Obligations.MarkedStateHasNoStep := fun _ h =>
  ⟨exec_ne_next_of_marked h, step_ne_next_of_marked h⟩

/-! ### The channel bits -/

theorem decoderEvent_keeps_pair (n : Levels) {s : State} (h : storedPair s = pairOf s.phase) :
    storedPair (decoderEvent n s) = pairOf (decoderEvent n s).phase := by
  rcases decoderEvent_cases n s with ⟨_, he⟩ | ⟨q, d, ht, he⟩ <;> rw [he]
  · exact h
  · exact (transition_accept ht).2.1.symm

theorem exec_keeps_pair (i : Instr) (s t : State) (h : storedPair s = pairOf s.phase) (he : exec i s = .next t) :
    storedPair t = pairOf t.phase := by
  cases i with
  | edge c l => obtain ⟨_, rfl⟩ := (exec_edge_next_iff c l s t).1 he; exact decoderEvent_keeps_pair _ h
  | pair a b => obtain ⟨_, rfl⟩ := (exec_pair_next_iff a b s t).1 he; exact decoderEvent_keeps_pair _ h
  | tick =>
    obtain ⟨_, rfl⟩ := (exec_tick_next_iff s t).1 he
    obtain ⟨⟨hp, ha, hb⟩, -⟩ := tickEvent_frame s
    rwa [storedPair, hp, ha, hb]
  | reset => obtain ⟨_, _, _, rfl⟩ := (exec_reset_next_iff s t).1 he; rfl

/-- What every event keeps, every run of events keeps. -/
theorem runEvents_keeps {P : State → Prop} (hexec : ∀ i s t, P s → exec i s = .next t → P t) :
    ∀ (is : List Instr) (s t : State), P s → runEvents is s = some t → P t
  | [], _, _, hs, hr => Option.some.inj hr ▸ hs
  | i :: is, s, t, hs, hr => by
    unfold runEvents at hr
    cases he : exec i s with
    | next u => rw [he] at hr; exact runEvents_keeps hexec is u t (hexec i s u hs he) hr
    | fault r => rw [he] at hr; cases hr
    | refused r => rw [he] at hr; cases hr

/-- Settles O46: RESET writes the phase's pair, and every event keeps it. -/
theorem channelBitsAreThePhasePair : Obligations.ChannelBitsAreThePhasePair :=
  ⟨fun _ => rfl, runEvents_keeps exec_keeps_pair⟩

/-! ### Values within the voltage limit -/

theorem within_iff {lo hi x : NumVal} (hlo : isNaN lo = false) (hhi : isNaN hi = false) (hx : isNaN x = false) :
    within lo hi x = true ↔ ltVal x lo = false ∧ ltVal hi x = false := by
  simp [within, geVal, hlo, hhi, hx]

/-- A finite value is within symmetric limits exactly when its magnitude is no greater than theirs. -/
theorem within_fin_iff (lim m : Nat) (neg : Bool) :
    within (.fin true lim) (.fin false lim) (.fin neg m) = true ↔ m ≤ lim := by
  rw [within_iff rfl rfl rfl]
  cases neg <;> simp [ltVal, signedMag]

theorem within_vMax_posZero {b : Build} (hb : buildValid b = true) :
    within (negVal (numVal b.vMax)) (numVal b.vMax) posZero = true := by
  obtain ⟨lim, hv, _, _⟩ := buildValid_vMax hb
  rw [hv]
  exact (within_fin_iff lim 0 false).2 (Nat.zero_le _)

/-- A saturated number is within the voltage limit (42_controller.md R143, R151). -/
theorem within_vMax_sat {b : Build} (hb : buildValid b = true) {x : NumVal} (hx : isNaN x = false) :
    within (negVal (numVal b.vMax)) (numVal b.vMax) (sat b x) = true := by
  obtain ⟨lim, hv, _, _⟩ := buildValid_vMax hb
  unfold sat
  rw [hv]
  split_ifs with habove hbelow
  · exact (within_fin_iff lim lim false).2 le_rfl
  · exact (within_fin_iff lim lim true).2 le_rfl
  · exact (within_iff rfl rfl hx).2 ⟨Bool.eq_false_of_not_eq_true hbelow, Bool.eq_false_of_not_eq_true habove⟩

/-! ### Which updates keep a good state -/

theorem Good.setTrace {s : State} (h : Good s) (t : List EventWord) : Good (setTrace t s) :=
  ⟨h.pair, h.cnt, h.nsec, h.eFmt, h.uFmt, h.eNum, h.uLim⟩

theorem Good.markFault {s : State} (h : Good s) (f : Fault) : Good (markFault f s) :=
  ⟨h.pair, h.cnt, h.nsec, h.eFmt, h.uFmt, h.eNum, h.uLim⟩

theorem Good.markRefused {s : State} (h : Good s) (r : Refusal) : Good (markRefused r s) :=
  ⟨h.pair, h.cnt, h.nsec, h.eFmt, h.uFmt, h.eNum, h.uLim⟩

theorem Good.emit {s : State} (h : Good s) (r : Record) : Good (emit r s) :=
  ⟨h.pair, h.cnt, h.nsec, h.eFmt, h.uFmt, h.eNum, h.uLim⟩

theorem Good.setDecoder {s : State} (h : Good s) {p : Phase} {n : Levels} (hn : pairOf p = n) : Good (setDecoder p n s) :=
  ⟨hn.symm, h.cnt, h.nsec, h.eFmt, h.uFmt, h.eNum, h.uLim⟩

theorem Good.setCnt {s : State} (h : Good s) {x : Int} (hx : inIntN s.build.cntW x = true) : Good (setCnt x s) :=
  ⟨h.pair, hx, h.nsec, h.eFmt, h.uFmt, h.eNum, h.uLim⟩

theorem Good.setWake {s : State} (h : Good s) (sec : Word64) {nsec : Word64} (hn : nsec.toNat < 10 ^ 9) :
    Good (setWake sec nsec s) :=
  ⟨h.pair, h.cnt, hn, h.eFmt, h.uFmt, h.eNum, h.uLim⟩

theorem Good.setHistory {s : State} (h : Good s) {e u : NumBits} (he : numFmtOf e = s.build.numFmt)
    (hu : numFmtOf u = s.build.numFmt) (hnum : isNaN (numVal e) = false)
    (hlim : within (negVal (numVal s.build.vMax)) (numVal s.build.vMax) (numVal u) = true) : Good (setHistory e u s) :=
  ⟨h.pair, h.cnt, h.nsec, he, hu, hnum, hlim⟩

/-! ### What each event leaves is good -/

theorem inIntN_zero (n : Nat) : inIntN n 0 = true := by
  have hpos : (0 : Int) < 2 ^ (n - 1) := by positivity
  exact (inIntN_iff n 0).2 (by omega)

/-- Nanoseconds below 10^9 fit the 64-bit register. -/
theorem toNat_ofNat_nsec_lt {x : Nat} (h : x < 10 ^ 9) : (BitVec.ofNat 64 x).toNat < 10 ^ 9 :=
  (Nat.mod_le x _).trans_lt h

theorem good_decoderEvent (n : Levels) {s : State} (hb : buildValid s.build = true) (h : Good s) : Good (decoderEvent n s) := by
  rcases decoderEvent_cases n s with ⟨_, he⟩ | ⟨q, d, ht, he⟩ <;> rw [he]
  · exact h
  · exact (h.setDecoder (transition_accept ht).2.1).setCnt (wrapInt_inIntN (Nat.le_of_succ_le (buildValid_cntW hb)) _)

theorem good_publish {s : State} (hb : buildValid s.build = true) (hn : NoNaN s) (h : Good s) :
    Good (publish (iterationOf s) (setCnt 0 s)) := by
  obtain ⟨_, he, hu⟩ := (noNaN_iff s).1 hn
  refine (((h.setCnt (inIntN_zero _)).emit _).emit _).setHistory (numFmtOf_numOf _ _) (numFmtOf_numOf _ _)
    ((congrArg isNaN (numVal_numOf_e s)).trans he) ?_
  exact (congrArg _ (numVal_numOf_u hb)).trans (within_vMax_sat hb hu)

theorem good_tickEvent {s : State} (hb : buildValid s.build = true) (h : Good s) : Good (tickEvent s) := by
  rcases tickEvent_cases s with ⟨_, he⟩ | ⟨hn, _, he⟩ | ⟨hn, _, he⟩ <;> rw [he]
  · exact (h.setCnt (inIntN_zero _)).markFault _
  · exact (good_publish hb hn h).markFault _
  · exact (good_publish hb hn h).setWake _ (toNat_ofNat_nsec_lt (Nat.mod_lt _ (by decide)))

theorem numFmtOf_zeroNum (f : NumFmt) : numFmtOf (zeroNum f) = f := by cases f <;> rfl

theorem numVal_zeroNum (f : NumFmt) : numVal (zeroNum f) = posZero := by cases f <;> decide

/-- RESET needs no good state to leave one (70_reset_and_hazards.md R230). -/
theorem good_resetEvent {s : State} (hb : buildValid s.build = true) : Good (resetEvent s) where
  pair := rfl
  cnt := inIntN_zero _
  nsec := by
    obtain ⟨_, _, _, hns, -⟩ := buildValid_conditions hb
    exact toNat_ofNat_nsec_lt hns
  eFmt := numFmtOf_zeroNum _
  uFmt := numFmtOf_zeroNum _
  eNum := congrArg isNaN (numVal_zeroNum _)
  uLim := (congrArg _ (numVal_zeroNum _)).trans (within_vMax_posZero hb)

theorem good_resetOf {b : Build} (hb : buildValid b = true) : Good (State.resetOf b) :=
  good_resetEvent (s := State.powerUp b []) hb

/-- Settles O45: the reset state of a build is what RESET leaves from power-up. -/
theorem goodAtReset : Obligations.GoodAtReset :=
  ⟨fun _ => good_resetOf (by decide), fun _ => good_resetOf, fun _ _ hseen => absurd hseen Bool.false_ne_true⟩

/-! ### The invariant along steps -/

theorem good_of_running {s : State} (h : Inv s) : Running s → buildValid s.build = true ∧ Good s :=
  fun ⟨hb, _, _, hseen⟩ => ⟨hb, h hseen⟩

theorem good_of_exec {i : Instr} {s t : State} (h : Inv s) (he : exec i s = .next t) : Good t := by
  cases i with
  | edge c l =>
    obtain ⟨hr, rfl⟩ := (exec_edge_next_iff c l s t).1 he
    obtain ⟨hb, hg⟩ := good_of_running h hr
    exact good_decoderEvent _ hb hg
  | pair a b =>
    obtain ⟨hr, rfl⟩ := (exec_pair_next_iff a b s t).1 he
    obtain ⟨hb, hg⟩ := good_of_running h hr
    exact good_decoderEvent _ hb hg
  | tick =>
    obtain ⟨hr, rfl⟩ := (exec_tick_next_iff s t).1 he
    obtain ⟨hb, hg⟩ := good_of_running h hr
    exact good_tickEvent hb hg
  | reset =>
    obtain ⟨hb, _, _, rfl⟩ := (exec_reset_next_iff s t).1 he
    exact good_resetEvent hb

/-- Settles O44: an event leaves a good state, and idling and refusing write no element that the invariant names. -/
theorem stepKeepsGoodState : Obligations.StepKeepsGoodState := by
  intro s t h hstep
  have htrace : ∀ rest, Inv (setTrace rest s) := fun rest hseen => (h hseen).setTrace rest
  rcases step_next_cases hstep with ⟨_, rfl⟩ | ⟨w, rest, i, _, _, he⟩ | ⟨w, rest, _, _, _, rfl⟩
  · exact h
  · exact fun _ => good_of_exec (htrace rest) he
  · exact fun hseen => (htrace rest hseen).markRefused _

end Sys2Proof.Machine
end

section
/-!
PROOFS of the statements of 20_memory.md: OUT only grows, the two agents meet only in CNT, and the bytes of a sample
determine it.
-/

namespace Sys2Proof.Machine

/-! ### What an event appends to OUT -/

/-- The records a TICK appends: none when a NaN stops it before step 5, else both, ACT first (20_memory.md R61). -/
theorem tickEvent_out_cases (s : State) :
    (tickEvent s).out = s.out ∨
    (tickEvent s).out =
      s.out ++ [actRecord s.build (iterationOf s), smpRecord s.build s.wakeSec s.wakeNsec (iterationOf s)] := by
  have hpub : (publish (iterationOf s) (setCnt 0 s)).out = _ := congrArg State.out (publish_eq _ _)
  rcases tickEvent_cases s with ⟨_, he⟩ | ⟨_, _, he⟩ | ⟨_, _, he⟩ <;> rw [he]
  · exact .inl rfl
  · exact .inr hpub
  · exact .inr hpub

/-- An event leaves OUT, or is a TICK that appends ACT and then SMP with the deadline it served. -/
theorem exec_out_cases {i : Instr} {s t : State} (h : exec i s = .next t) :
    t.out = s.out ∨
    (i = .tick ∧ ∃ dir duty v u, t.out = s.out ++ [.act dir duty, .smp s.wakeSec s.wakeNsec v u]) := by
  have hdec : ∀ n, (decoderEvent n s).out = s.out := fun n => by
    obtain ⟨⟨_, _, _, _, hout⟩, -⟩ := decoderEvent_frame n s
    exact hout
  cases i with
  | edge c l => obtain ⟨_, rfl⟩ := (exec_edge_next_iff c l s t).1 h; exact .inl (hdec _)
  | pair a b => obtain ⟨_, rfl⟩ := (exec_pair_next_iff a b s t).1 h; exact .inl (hdec _)
  | tick =>
    obtain ⟨_, rfl⟩ := (exec_tick_next_iff s t).1 h
    exact (tickEvent_out_cases s).imp_right fun hout => ⟨rfl, _, _, _, _, hout⟩
  | reset => obtain ⟨_, _, _, rfl⟩ := (exec_reset_next_iff s t).1 h; exact .inl (resetEvent_frame s).1

/-- TICK has one word (30_encoding.md R74). -/
theorem eq_of_decode_tick {w : EventWord} (h : decode w = .ok .tick) : w = 0x30 := by
  unfold decode at h
  split_ifs at h with _ _ htick
  · cases h
  · cases h
  · exact htick
  · cases h

/-- Settles O31: idling and refusing leave OUT, and of the events only TICK appends to it. -/
theorem outIsAppendOnly : Obligations.OutIsAppendOnly := by
  intro s t h
  rcases step_next_cases h with ⟨_, rfl⟩ | ⟨w, rest, i, ht, hd, he⟩ | ⟨w, rest, _, _, _, rfl⟩
  · exact .inl rfl
  · refine (exec_out_cases he).imp_right ?_
    rintro ⟨rfl, hout⟩
    exact ⟨⟨rest, eq_of_decode_tick hd ▸ ht⟩, hout⟩
  · exact .inl rfl

/-! ### Each agent's events and the other agent's elements -/

/-- The elements that CTL owns and DEC never writes, OUT among them, written whole (10_state.md R20). -/
def setControl (sec nsec : Word64) (e u : NumBits) (o : List Record) (s : State) : State :=
  { s with wakeSec := sec, wakeNsec := nsec, ePrev := e, uPrev := u, out := o }

theorem setControl_phase (sec nsec : Word64) (e u : NumBits) (o : List Record) (s : State) :
    (setControl sec nsec e u o s).phase = s.phase := rfl

/-- The advance of the deadline does not meet the decoder's elements. -/
theorem advanceWake_setDecoder (p : Phase) (n : Levels) (s : State) :
    advanceWake (setDecoder p n s) = setDecoder p n (advanceWake s) := by
  unfold advanceWake
  rw [apply_ite (setDecoder p n)]
  rfl

/-- Steps 3 to 7 of an iteration do not meet the decoder's elements. -/
theorem runIteration_setDecoder (it : Iteration) (p : Phase) (n : Levels) (s : State) :
    runIteration it (setDecoder p n s) = setDecoder p n (runIteration it s) := by
  unfold runIteration
  split
  · rfl
  · exact advanceWake_setDecoder p n (publish it s)

/-- A TICK commutes with writing the decoder's elements (20_memory.md R51, 41_sample_clock.md R122). -/
theorem tickEvent_setDecoder (p : Phase) (n : Levels) (s : State) :
    tickEvent (setDecoder p n s) = setDecoder p n (tickEvent s) :=
  runIteration_setDecoder (iterationOf s) p n (setCnt 0 s)

/-- A decoder event commutes with writing the controller's elements (20_memory.md R51, 40_decoder.md R101). -/
theorem decoderEvent_setControl (m : Levels) (sec nsec : Word64) (e u : NumBits) (o : List Record) (s : State) :
    decoderEvent m (setControl sec nsec e u o s) = setControl sec nsec e u o (decoderEvent m s) := by
  unfold decoderEvent
  rw [setControl_phase]
  rcases transition s.phase m with ⟨_ | _, q, d⟩ <;> rfl

/-- Settles O32: each agent's event commutes with writing the other's elements, and those do not decide whether the
machine runs. -/
theorem agentsMeetOnlyInCnt : Obligations.AgentsMeetOnlyInCnt := by
  constructor
  · intro s t p n h
    obtain ⟨hr, rfl⟩ := (exec_tick_next_iff s t).1 h
    exact (exec_tick_next_iff (setDecoder p n s) _).2 ⟨hr, tickEvent_setDecoder p n s⟩
  · intro i s t sec nsec e u o hdec h
    cases i with
    | edge c l =>
      obtain ⟨hr, rfl⟩ := (exec_edge_next_iff c l s t).1 h
      exact (exec_edge_next_iff c l (setControl sec nsec e u o s) _).2 ⟨hr, decoderEvent_setControl _ ..⟩
    | pair a b =>
      obtain ⟨hr, rfl⟩ := (exec_pair_next_iff a b s t).1 h
      exact (exec_pair_next_iff a b (setControl sec nsec e u o s) _).2 ⟨hr, decoderEvent_setControl _ ..⟩
    | tick => cases hdec
    | reset => cases hdec

/-! ### The bytes of a sample -/

@[simp] theorem length_lowBytes (n x : Nat) : (lowBytes n x).length = n := by simp [lowBytes]

@[simp] theorem length_inOrder (e : Endian) (bs : List Byte) : (inOrder e bs).length = bs.length := by
  cases e
  · rfl
  · exact List.length_reverse

theorem inOrder_injective (e : Endian) : Function.Injective (inOrder e) := by
  cases e
  · exact Function.injective_id
  · exact List.reverse_injective

theorem lowBytes_succ (n x : Nat) : lowBytes (n + 1) x = lowBytes n x ++ [BitVec.ofNat 8 (x / 256 ^ n)] := by
  simp [lowBytes, List.range_succ]

/-- The low bytes of a number determine it modulo 256^n. -/
theorem mod_eq_of_lowBytes_eq {x y : Nat} : ∀ {n : Nat}, lowBytes n x = lowBytes n y → x % 256 ^ n = y % 256 ^ n
  | 0, _ => by rw [pow_zero, Nat.mod_one, Nat.mod_one]
  | n + 1, h => by
    rw [lowBytes_succ, lowBytes_succ] at h
    obtain ⟨hlow, htop⟩ := List.append_inj' h rfl
    have hbyte : x / 256 ^ n % 256 = y / 256 ^ n % 256 := congrArg BitVec.toNat (List.singleton_inj.1 htop)
    rw [Nat.mod_pow_succ, Nat.mod_pow_succ, mod_eq_of_lowBytes_eq hlow, hbyte]

/-- A word of n bytes is determined by its bytes, in either order. -/
theorem word_eq_of_bytes_eq {e : Endian} {n : Nat} {x y : BitVec (8 * n)}
    (h : inOrder e (lowBytes n x.toNat) = inOrder e (lowBytes n y.toNat)) : x = y := by
  have hmod := mod_eq_of_lowBytes_eq (inOrder_injective e h)
  rw [show 256 ^ n = 2 ^ (8 * n) from (pow_mul 2 8 n).symm, Nat.mod_eq_of_lt x.isLt, Nat.mod_eq_of_lt y.isLt] at hmod
  exact BitVec.eq_of_toNat_eq hmod

theorem length_numBytes (e : Endian) (x : NumBits) : (numBytes e x).length = fmtWidth (numFmtOf x) / 8 := by
  cases x <;> simp [numBytes, numFmtOf, fmtWidth]

/-- A NUM of a known format is determined by its bytes. -/
theorem num_eq_of_numBytes_eq {e : Endian} {x y : NumBits} (hf : numFmtOf x = numFmtOf y)
    (h : numBytes e x = numBytes e y) : x = y := by
  match x, y with
  | .b32 v, .b32 w => exact congrArg NumBits.b32 (word_eq_of_bytes_eq (n := 4) h)
  | .b64 v, .b64 w => exact congrArg NumBits.b64 (word_eq_of_bytes_eq (n := 8) h)

/-- Settles O49: equal frames split into equal fields, for each field's length is fixed, and a field's bytes determine
it. -/
theorem telemetryFrameIsFaithful : Obligations.TelemetryFrameIsFaithful := by
  intro e s1 n1 s2 n2 v1 u1 v2 u2 hv hu h
  obtain ⟨hsnv, hu'⟩ := List.append_inj' (Option.some.inj h) (by rw [length_numBytes, length_numBytes, hu])
  obtain ⟨hsn, hv'⟩ := List.append_inj' hsnv (by rw [length_numBytes, length_numBytes, hv])
  obtain ⟨hs', hn'⟩ := List.append_inj' hsn (by simp)
  exact ⟨word_eq_of_bytes_eq (n := 8) hs', word_eq_of_bytes_eq (n := 8) hn',
    num_eq_of_numBytes_eq hv hv', num_eq_of_numBytes_eq hu hu'⟩

end Sys2Proof.Machine
end

section
/-!
PROOFS of the statements of 30_encoding.md: event words and events determine each other, reserved words are refused, the
two cycles count four, and trace text assembles to its words.
-/

namespace Sys2Proof.Machine

/-! ### Words and events -/

theorem decode_encode (i : Instr) : decode (encode i) = .ok i := by
  cases i with
  | edge c l => cases c <;> cases l <;> rfl
  | pair a b => cases a <;> cases b <;> rfl
  | tick => rfl
  | reset => rfl

theorem bitOfChannel_channelOfBit (b : Bool) : bitOfChannel (channelOfBit b) = b := by cases b <;> rfl

/-- A word is its bits 7 to 2 and its two operand bits (30_encoding.md R70, R72). -/
theorem word_eq_fixed_or_operandBits (w : EventWord) :
    w = w &&& 0xFC#8 ||| operandBits (w.getLsbD 1) (w.getLsbD 0) := by
  refine BitVec.eq_of_getLsbD_eq fun i hi => ?_
  unfold operandBits
  interval_cases i <;> cases w.getLsbD 0 <;> cases w.getLsbD 1 <;> simp

/-- A word that stands for an event is that event's word: decoding drops no bit (30_encoding.md R74). -/
theorem eq_encode_of_decode {w : EventWord} {i : Instr} (h : decode w = .ok i) : w = encode i := by
  have hw := word_eq_fixed_or_operandBits w
  unfold decode at h
  split_ifs at h with hedge hpair htick hreset <;> obtain rfl := Except.ok.inj h
  · rwa [encode, bitOfChannel_channelOfBit, ← hedge]
  · rwa [encode, ← hpair]
  · exact htick
  · exact hreset

theorem decode_eq_ok_iff (w : EventWord) (i : Instr) : decode w = .ok i ↔ w = encode i :=
  ⟨eq_encode_of_decode, fun h => h ▸ decode_encode i⟩

theorem decodeTrace_cons_eq_ok_iff (w : EventWord) (ws : List EventWord) (is : List Instr) :
    decodeTrace (w :: ws) = .ok is ↔ ∃ i js, decode w = .ok i ∧ decodeTrace ws = .ok js ∧ is = i :: js := by
  rw [decodeTrace]
  cases decode w with
  | error e => simp
  | ok i =>
    cases decodeTrace ws with
    | error e => simp
    | ok js => simp [eq_comm]

/-- Settles O2: each word of the table is the word of its event. -/
theorem tableWordsDecode : Obligations.TableWordsDecode :=
  ⟨decode_encode (.edge .A false), decode_encode (.edge .A true), decode_encode (.edge .B false),
    decode_encode (.edge .B true), decode_encode (.pair false false), decode_encode (.pair false true),
    decode_encode (.pair true false), decode_encode (.pair true true), decode_encode .tick, decode_encode .reset⟩

/-- Settles O3: operand by operand, every event being well-formed. -/
theorem decodeEncodeAgree : Obligations.DecodeEncodeAgree := fun i _ => decode_encode i

/-- Settles O4, by induction on the words: a word decodes to an event exactly when it is that event's word. -/
theorem traceDecodeEncodeAgree : Obligations.TraceDecodeEncodeAgree := by
  intro ws
  induction ws with
  | nil => intro is; cases is <;> simp [decodeTrace, encodeTrace]
  | cons w ws ih =>
    intro is
    simp only [decodeTrace_cons_eq_ok_iff, decode_eq_ok_iff, ih]
    cases is <;> simp [encodeTrace]

/-! ### Reserved words -/

theorem wordWellFormed_encode (i : Instr) : wordWellFormed (encode i) = true := by
  cases i with
  | edge c l => exact (Laws.RowPattern.edge c l).2
  | pair a b => exact (Laws.RowPattern.pair a b).2
  | tick => exact Laws.RowPattern.tick.2
  | reset => exact Laws.RowPattern.reset.2

/-- A word is rejected with one reason only (30_encoding.md R75). -/
theorem eq_reservedEvent_of_decode_error {w : EventWord} {e : DecodeError} (h : decode w = .error e) :
    e = .reservedEvent := by
  unfold decode at h
  split_ifs at h
  exact (Except.error.inj h).symm

theorem decode_of_not_wordWellFormed {w : EventWord} (h : wordWellFormed w = false) :
    decode w = .error .reservedEvent := by
  cases hd : decode w with
  | ok i =>
    rw [eq_encode_of_decode hd, wordWellFormed_encode] at h
    cases h
  | error e => rw [eq_reservedEvent_of_decode_error hd]

theorem presented_of_decode_error {s : State} {w : EventWord} {rest : List EventWord} (ht : s.trace = w :: rest)
    (hd : decode w = .error .reservedEvent) : presented s = .reserved rest := by
  simp [presented, decodeBytes, ht, hd]

/-- Of the 256 words, as many are outside a list without duplicates as its length leaves over. -/
theorem length_filter_not_contains {ws : List EventWord} (h : ws.Nodup) :
    ((List.range 256).filter fun n => !ws.contains (BitVec.ofNat 8 n)).length = 256 - ws.length := by
  have hin : ((List.range 256).filter fun n => ws.contains (BitVec.ofNat 8 n)).Perm (ws.map BitVec.toNat) := by
    refine (List.perm_ext_iff_of_nodup (List.nodup_range.filter _) (h.map BitVec.toNat_injective)).2 fun n => ?_
    simp only [List.mem_filter, List.mem_range, List.contains_iff_mem, List.mem_map]
    constructor
    · rintro ⟨hn, hmem⟩
      exact ⟨_, hmem, (BitVec.toNat_ofNat _ 8).trans (Nat.mod_eq_of_lt hn)⟩
    · rintro ⟨w, hmem, rfl⟩
      exact ⟨w.isLt, by rwa [BitVec.ofNat_toNat, BitVec.setWidth_eq]⟩
  have hsum := List.length_eq_length_filter_add (l := List.range 256) fun n => ws.contains (BitVec.ofNat 8 n)
  rw [hin.length_eq, List.length_map, List.length_range] at hsum
  omega

/-- Settles O5: a word outside the ten is presented as reserved, and a running state refuses it. -/
theorem reservedWordIsRefused : Obligations.ReservedWordIsRefused := by
  refine ⟨length_filter_not_contains (ws := definedWords) (by decide), by decide, by decide,
    fun s w rest hr ht hw => ?_⟩
  have hrest : Running (setTrace rest s) := hr
  rw [step, presented_of_decode_error ht (decode_of_not_wordWellFormed hw)]
  exact afterReset_of_running hrest

/-! ### The two cycles -/

/-- The state with the decoder at a phase, the channels at its pair, and a count. -/
def atPhase (p : Phase) (x : Int) (s : State) : State := setCnt x (setDecoder p (pairOf p) s)

theorem eq_atPhase {s : State} (hpair : storedPair s = pairOf s.phase) : s = atPhase s.phase s.cnt s := by
  rw [atPhase, ← hpair]
  rfl

/-- An accepted edge moves the decoder to the table's phase and adds the table's delta (40_decoder.md R100, R101). -/
theorem exec_edge_atPhase {c : Channel} {l : Bool} {p q : Phase} {d x : Int} {s : State} (hr : Running s)
    (ht : transition p (edgePair c l (atPhase p x s)) = (true, q, d)) :
    exec (.edge c l) (atPhase p x s) = .next (atPhase q (wrapInt s.build.cntW (x + d)) s) := by
  refine (exec_edge_next_iff ..).2 ⟨hr, ?_⟩
  rcases decoderEvent_cases (edgePair c l (atPhase p x s)) (atPhase p x s) with ⟨hno, _⟩ | ⟨q', d', hacc, he⟩
  · cases (congrArg Prod.fst ht).symm.trans hno
  · obtain ⟨-, rfl, rfl⟩ : true = true ∧ q = q' ∧ d = d' := by simpa using ht.symm.trans hacc
    rw [he, ← (transition_accept ht).2.1]
    rfl

theorem runEvents_edge_atPhase {c : Channel} {l : Bool} {p q : Phase} {d x : Int} {s : State} {is : List Instr}
    (hr : Running s) (ht : transition p (edgePair c l (atPhase p x s)) = (true, q, d)) :
    runEvents (.edge c l :: is) (atPhase p x s) = runEvents is (atPhase q (wrapInt s.build.cntW (x + d)) s) := by
  rw [runEvents, exec_edge_atPhase hr ht]

theorem runEvents_cycleDec {s : State} (hr : Running s) (x : Int) :
    runEvents cycleDec (atPhase .S1 x s) = some (atPhase .S1 (wrapInt s.build.cntW (x - 4)) s) := by
  rw [cycleDec, runEvents_edge_atPhase (q := .S2) (d := -1) hr rfl, runEvents_edge_atPhase (q := .S3) (d := -1) hr rfl,
    runEvents_edge_atPhase (q := .S4) (d := -1) hr rfl, runEvents_edge_atPhase (q := .S1) (d := -1) hr rfl, runEvents]
  simp only [wrapInt_wrapInt_add, add_assoc]
  rfl

theorem runEvents_cycleInc {s : State} (hr : Running s) (x : Int) :
    runEvents cycleInc (atPhase .S1 x s) = some (atPhase .S1 (wrapInt s.build.cntW (x + 4)) s) := by
  rw [cycleInc, runEvents_edge_atPhase (q := .S4) (d := 1) hr rfl, runEvents_edge_atPhase (q := .S3) (d := 1) hr rfl,
    runEvents_edge_atPhase (q := .S2) (d := 1) hr rfl, runEvents_edge_atPhase (q := .S1) (d := 1) hr rfl, runEvents]
  simp only [wrapInt_wrapInt_add, add_assoc]
  rfl

/-- Settles O21: from S1 each cycle is four accepted edges of one direction. -/
theorem cyclesCountFour : Obligations.CyclesCountFour := by
  refine ⟨rfl, rfl, fun n => List.map_replicate, fun s hr hphase hpair => ?_⟩
  have hs : s = atPhase .S1 s.cnt s := hphase ▸ eq_atPhase hpair
  have hcnt : ∀ y, atPhase .S1 y s = { s with cnt := y } := fun y => (congrArg (setCnt y) hs).symm
  rw [← hcnt, ← hcnt, ← runEvents_cycleDec hr, ← runEvents_cycleInc hr, ← hs]
  exact ⟨rfl, rfl⟩

/-! ### The text of TICKS n -/

theorem toUpper_of_isDigit {c : Char} (hc : c.isDigit = true) : c.toUpper = c := by
  refine Char.toUpper_eq_of_not_isLower fun hlower => ?_
  simp only [Char.isDigit, Char.isLower, Bool.and_eq_true, decide_eq_true_eq] at hc hlower
  exact absurd (UInt32.le_trans hlower.1 hc.2) (by decide)

theorem not_isBlank_of_isDigit {c : Char} (hc : c.isDigit = true) : ¬ isBlank c = true := by
  intro hblank
  simp only [isBlank, Bool.or_eq_true, beq_iff_eq] at hblank
  rcases hblank with (rfl | rfl) | rfl <;> cases hc

/-- A digit is part of a token, as it stands (log entry 13). -/
theorem tokensFrom_cons_of_isDigit {c : Char} (hc : c.isDigit = true) (cur cs : List Char) :
    tokensFrom cur (c :: cs) = tokensFrom (c :: cur) cs := by
  have hsemi : c ≠ ';' := by rintro rfl; cases hc
  have hcomma : c ≠ ',' := by rintro rfl; cases hc
  rw [tokensFrom, if_neg hsemi, if_neg (not_isBlank_of_isDigit hc), if_neg hcomma, toUpper_of_isDigit hc]

theorem tokensFrom_digits {ds : List Char} (hd : ∀ c ∈ ds, c.isDigit = true) (cur : List Char) :
    tokensFrom cur ds = flushToken (ds.reverse ++ cur) [] := by
  induction ds generalizing cur with
  | nil => rfl
  | cons c cs ih =>
    obtain ⟨hc, hcs⟩ := List.forall_mem_cons.1 hd
    rw [tokensFrom_cons_of_isDigit hc, ih hcs, List.reverse_cons, List.append_assoc, List.singleton_append]

/-- Reading digits is the library's reading of them (30_encoding.md R80; log entry 13). -/
theorem numberFrom_digits {ds : List Char} (hd : ∀ c ∈ ds, c.isDigit = true) (n : Nat) :
    numberFrom n ds = some (Nat.ofDigitChars 10 ds n) := by
  induction ds generalizing n with
  | nil => rfl
  | cons c cs ih =>
    obtain ⟨hc, hcs⟩ := List.forall_mem_cons.1 hd
    rw [numberFrom, if_pos hc, ih hcs, Nat.ofDigitChars_cons]
    rfl

theorem isDigit_of_mem_toDigits_ten (n : Nat) : ∀ c ∈ Nat.toDigits 10 n, c.isDigit = true :=
  fun _ => Nat.isDigit_of_mem_toDigits (by decide) le_rfl

theorem numberFrom_toDigits (n : Nat) : numberFrom 0 (Nat.toDigits 10 n) = some n := by
  rw [numberFrom_digits (isDigit_of_mem_toDigits_ten n), Nat.ofDigitChars_ten_toDigits]

theorem tokensFrom_ticks (n : Nat) :
    tokensFrom [] (['T', 'I', 'C', 'K', 'S', ' '] ++ Nat.toDigits 10 n) =
      [['T', 'I', 'C', 'K', 'S'], Nat.toDigits 10 n] := by
  have hnum : tokensFrom [] (Nat.toDigits 10 n) = [Nat.toDigits 10 n] := by
    simp [tokensFrom_digits (isDigit_of_mem_toDigits_ten n), flushToken, Nat.toDigits_ne_nil]
  exact congrArg (flushToken ['S', 'K', 'C', 'I', 'T']) hnum

/-- The line `TICKS n` with n in decimal: no event for 0, else n TICKs (30_encoding.md R80; log entry 13). -/
theorem assembleLine_ticks (n : Nat) :
    assembleLine (['T', 'I', 'C', 'K', 'S', ' '] ++ Nat.toDigits 10 n) = if n = 0 then none else some (ticks n) := by
  rw [assembleLine, tokensFrom_ticks, assembleTokens, assembleTicks, if_pos rfl, numberFrom_toDigits]
  cases n <;> rfl

/-- Settles O53: the digits of n are one token, and are read back as n. -/
theorem ticksTextExpands : Obligations.TicksTextExpands :=
  ⟨fun n hn => (assembleLine_ticks n).trans (if_neg (Nat.ne_of_gt hn)), assembleLine_ticks 0⟩

/-! ### The text of an event -/

theorem linesFrom_of_no_newline {cs : List Char} (h : '\n' ∉ cs) (cur : List Char) :
    linesFrom cur cs = [cur.reverse ++ cs] := by
  induction cs generalizing cur with
  | nil => rw [linesFrom, List.append_nil]
  | cons c cs ih =>
    obtain ⟨hc, hcs⟩ := not_or.1 (mt List.mem_cons.2 h)
    rw [linesFrom, if_neg (Ne.symm hc), ih hcs, List.reverse_cons, List.append_assoc, List.singleton_append]

/-- A text of one line assembles to the words of that line's events (30_encoding.md R79). -/
theorem assemble_of_line {line : List Char} {is : List Instr} (hn : '\n' ∉ line) (h : assembleLine line = some is) :
    assemble line = some (encodeTrace is) := by
  rw [assemble, linesFrom_of_no_newline hn]
  simp [assembleLines, h]

theorem newline_not_mem_eventText (i : Instr) : '\n' ∉ eventText i := by
  cases i with
  | edge c l => cases c <;> cases l <;> decide
  | pair a b => cases a <;> cases b <;> decide
  | tick => decide
  | reset => decide

theorem assembleLine_eventText (i : Instr) : assembleLine (eventText i) = some [i] := by
  cases i with
  | edge c l => cases c <;> cases l <;> rfl
  | pair a b => cases a <;> cases b <;> rfl
  | tick => rfl
  | reset => rfl

/-- Settles O48: an event's text is one line, which the assembler reads as that event. -/
theorem textAssemblesToItsWord : Obligations.TextAssemblesToItsWord :=
  ⟨fun i => assemble_of_line (newline_not_mem_eventText i) (assembleLine_eventText i), rfl, rfl,
    assembleLine_ticks 12⟩

end Sys2Proof.Machine
end

section
/-!
PROOFS of the statements of 40_decoder.md: the transition table by phase codes, what EDGE and PAIR do and do not do, the
inverse of an event, and the net count of a walk of decoder events.
-/

namespace Sys2Proof.Machine

/-! ### The transition table -/

/-- Settles O16: the table has sixteen entries, four for each phase. -/
theorem transitionByPhaseCode : Obligations.TransitionByPhaseCode := by
  intro p
  cases p <;> decide

theorem phaseOf_pairOf (p : Phase) : phaseOf (pairOf p) = p := by cases p <;> rfl

/-- The phase's own pair and the opposite pair are ignored (40_decoder.md R100). -/
theorem transition_own_or_opposite {p : Phase} {n : Levels}
    (h : n = pairOf p ∨ phaseCode (phaseOf n) = phaseCode p + 2) : transition p n = (false, p, 0) := by
  obtain ⟨-, -, hown, hopposite⟩ := transitionByPhaseCode p n
  rcases h with rfl | h
  · exact hown (congrArg phaseCode (phaseOf_pairOf p))
  · exact hopposite h

/-- The way back from an accepted pair is accepted with the opposite count (40_decoder.md R106). -/
theorem transition_back {p q : Phase} {n : Levels} {d : Int} (h : transition p n = (true, q, d)) :
    transition q (pairOf p) = (true, p, -d) := by
  obtain ⟨-, -, hmove⟩ := transition_accept h
  obtain ⟨hnext, hprevious, -⟩ := transitionByPhaseCode q (pairOf p)
  rw [phaseOf_pairOf] at hnext hprevious
  rcases hmove with ⟨rfl, hq⟩ | ⟨rfl, hq⟩
  · exact hprevious (eq_sub_of_add_eq hq.symm)
  · exact hnext hq.symm

/-- A pair that shares a level with the phase's own is not the opposite one (40_decoder.md R101). -/
theorem not_opposite_of_shared_level {p : Phase} {n : Levels} (h : n.1 = (pairOf p).1 ∨ n.2 = (pairOf p).2) :
    phaseCode (phaseOf n) ≠ phaseCode p + 2 := by
  revert n
  cases p <;> decide

/-! ### One decoder event -/

/-- The whole effect of a decoder event, written out (40_decoder.md R101, R102). -/
theorem decoderEvent_eq (n : Levels) (s : State) :
    decoderEvent n s =
      if (transition s.phase n).1 = true then
        { s with
          phase := (transition s.phase n).2.1
          chA := n.1
          chB := n.2
          cnt := wrapInt s.build.cntW (s.cnt + (transition s.phase n).2.2) }
      else s := by
  rcases decoderEvent_cases n s with ⟨h, he⟩ | ⟨q, d, h, he⟩ <;> rw [he, h] <;> rfl

/-- The phase's own pair and the opposite pair change nothing (40_decoder.md R101, R102). -/
theorem decoderEvent_own_or_opposite {n : Levels} {s : State}
    (h : n = pairOf s.phase ∨ phaseCode (phaseOf n) = phaseCode s.phase + 2) : decoderEvent n s = s := by
  rw [decoderEvent_eq, transition_own_or_opposite h]
  rfl

theorem decoderEvent_atPhase {p q : Phase} {n : Levels} {d x : Int} {s : State} (h : transition p n = (true, q, d)) :
    decoderEvent n (atPhase p x s) = atPhase q (wrapInt s.build.cntW (x + d)) s := by
  have hphase : transition (atPhase p x s).phase n = (true, q, d) := h
  rw [decoderEvent_eq, hphase, ← (transition_accept h).2.1]
  rfl

theorem running_decoderEvent {s : State} (h : Running s) (n : Levels) : Running (decoderEvent n s) := by
  obtain ⟨-, ⟨hfaulted, hrefused⟩, ⟨hbuild, -⟩, hseen⟩ := decoderEvent_frame n s
  rwa [Running, hbuild, hfaulted, hrefused, hseen]

theorem Running.one_le_cntW {s : State} (h : Running s) : 1 ≤ s.build.cntW :=
  Nat.le_of_succ_le (buildValid_cntW h.1)

theorem exec_edge_of_running {s : State} (h : Running s) (c : Channel) (l : Bool) :
    exec (.edge c l) s = .next (decoderEvent (edgePair c l s) s) := afterReset_of_running h

theorem exec_pair_of_running {s : State} (h : Running s) (a b : Bool) :
    exec (.pair a b) s = .next (decoderEvent (a, b) s) := afterReset_of_running h

/-- EDGE and PAIR are the decoder event of some pair, with the table's delta (40_decoder.md R101, R102). -/
theorem exec_isDecoderEvent {i : Instr} {s t : State} (hi : isDecoderEvent i = true) (h : exec i s = .next t) :
    Running s ∧ ∃ n, t = decoderEvent n s ∧ eventDelta i s = (transition s.phase n).2.2 := by
  cases i with
  | edge c l => obtain ⟨hr, rfl⟩ := (exec_edge_next_iff c l s t).1 h; exact ⟨hr, _, rfl, rfl⟩
  | pair a b => obtain ⟨hr, rfl⟩ := (exec_pair_next_iff a b s t).1 h; exact ⟨hr, _, rfl, rfl⟩
  | tick => cases hi
  | reset => cases hi

/-! ### EDGE and PAIR -/

theorem edgePair_eq (c : Channel) (l : Bool) (s : State) :
    edgePair c l s = if c = .A then (l, s.chB) else (s.chA, l) := by cases c <;> rfl

/-- Presenting the stored level presents the stored pair (40_decoder.md R101). -/
theorem edgePair_stored (c : Channel) (s : State) : edgePair c (if c = .A then s.chA else s.chB) s = storedPair s := by
  cases c <;> rfl

/-- Settles O17: the stored level presents the phase's own pair, and an EDGE leaves one of the phase's levels. -/
theorem edgeResult : Obligations.EdgeResult := by
  refine ⟨fun s c l hr => ?_, fun s c hr hpair => ?_, fun s c l hpair => ?_⟩
  · rw [exec_edge_of_running hr, decoderEvent_eq, edgePair_eq]
  · rw [exec_edge_of_running hr, edgePair_stored, decoderEvent_own_or_opposite (.inl hpair)]
  · obtain ⟨ha, hb⟩ := Prod.mk.inj hpair
    cases c with
    | A => exact not_opposite_of_shared_level (.inr hb)
    | B => exact not_opposite_of_shared_level (.inl ha)

/-- Settles O18: an EDGE presents the pair that differs from the stored one in its channel's bit. -/
theorem pairResult : Obligations.PairResult := by
  refine ⟨fun s a b hr => ?_, fun s a b hr h => ?_, fun s l _ => ⟨rfl, rfl⟩⟩
  · rw [exec_pair_of_running hr, decoderEvent_eq]
  · rw [exec_pair_of_running hr, decoderEvent_own_or_opposite h]

/-- Settles O19: an accept entry moves to the new pair's phase, an adjacent one, and counts one. -/
theorem decoderEventCountsOneOrNothing : Obligations.DecoderEventCountsOneOrNothing := by
  intro i s t hi h
  obtain ⟨-, n, rfl, -⟩ := exec_isDecoderEvent hi h
  have hframe := decoderEvent_frame n s
  rcases decoderEvent_cases n s with ⟨-, he⟩ | ⟨q, d, ht, he⟩ <;> rw [he] at hframe ⊢
  · exact .inl rfl
  · obtain ⟨-, hpair, hmove⟩ := transition_accept ht
    refine .inr ⟨hpair.symm, ?_, hframe⟩
    rcases hmove with ⟨rfl, hq⟩ | ⟨rfl, hq⟩
    · exact .inl ⟨hq, rfl⟩
    · exact .inr ⟨eq_sub_of_add_eq hq, rfl⟩

/-! ### The inverse of an event -/

/-- Presenting the old pair takes a decoder event back, wrap of CNT included (40_decoder.md R106). -/
theorem decoderEvent_storedPair_decoderEvent {s : State} (hr : Running s)
    (hpair : storedPair s = pairOf s.phase) (hcnt : inIntN s.build.cntW s.cnt = true) (n : Levels) :
    decoderEvent (storedPair s) (decoderEvent n s) = s := by
  have hs := eq_atPhase hpair
  rcases decoderEvent_cases n s with ⟨-, he⟩ | ⟨q, d, ht, -⟩
  · rw [he, decoderEvent_own_or_opposite (.inl hpair)]
  · calc decoderEvent (storedPair s) (decoderEvent n s)
      _ = decoderEvent (pairOf s.phase) (decoderEvent n (atPhase s.phase s.cnt s)) := by rw [hpair, ← hs]
      _ = atPhase s.phase (wrapInt s.build.cntW (wrapInt s.build.cntW (s.cnt + d) + -d)) s := by
        rw [decoderEvent_atPhase ht, decoderEvent_atPhase (transition_back ht)]
      _ = atPhase s.phase s.cnt s := by
        rw [wrapInt_wrapInt_add, add_neg_cancel_right, wrapInt_of_inIntN hr.one_le_cntW hcnt]
      _ = s := hs.symm

/-- The old level of an EDGE's channel, presented after it, presents the old pair: the other channel's bit is as it
was (40_decoder.md R101). -/
theorem edgePair_stored_decoderEvent (c : Channel) (l : Bool) (s : State) :
    edgePair c (if c = .A then s.chA else s.chB) (decoderEvent (edgePair c l s) s) = storedPair s := by
  rcases decoderEvent_cases (edgePair c l s) s with ⟨-, he⟩ | ⟨q, d, -, he⟩ <;> rw [he]
  · exact edgePair_stored c s
  · cases c <;> rfl

/-- Settles O20: both inverse events present the old pair. -/
theorem inverseEventRestores : Obligations.InverseEventRestores := by
  intro s hr hpair hcnt
  have hback := decoderEvent_storedPair_decoderEvent hr hpair hcnt
  constructor
  · intro c l t h
    obtain ⟨-, rfl⟩ := (exec_edge_next_iff c l s t).1 h
    rw [exec_edge_of_running (running_decoderEvent hr _), edgePair_stored_decoderEvent, hback]
  · intro a b t h
    obtain ⟨-, rfl⟩ := (exec_pair_next_iff a b s t).1 h
    rw [exec_pair_of_running (running_decoderEvent hr _)]
    exact congrArg _ (hback (a, b))

/-! ### Walks -/

theorem runEvents_cons_eq_some_iff (i : Instr) (is : List Instr) (s t : State) :
    runEvents (i :: is) s = some t ↔ ∃ u, exec i s = .next u ∧ runEvents is u = some t := by
  rw [runEvents]
  cases exec i s <;> simp

theorem sumEvents_cons_of_next {i : Instr} {s u : State} (h : exec i s = .next u) (g : Instr → State → Int)
    (is : List Instr) : sumEvents g (i :: is) s = g i s + sumEvents g is u := by
  rw [sumEvents, h]

/-- From s to t the count has moved by `d`, wrapped, and the phase's code by `-d` modulo 4 (40_decoder.md R106). -/
structure NetMove (d : Int) (s t : State) : Prop where
  build : t.build = s.build
  cnt : t.cnt = wrapInt s.build.cntW (s.cnt + d)
  phase : (((phaseCode t.phase).toNat : Int) - (phaseCode s.phase).toNat + d) % 4 = 0

theorem NetMove.refl {s : State} (hw : 1 ≤ s.build.cntW) (hcnt : inIntN s.build.cntW s.cnt = true) : NetMove 0 s s where
  build := rfl
  cnt := by rw [Int.add_zero, wrapInt_of_inIntN hw hcnt]
  phase := by simp

theorem NetMove.trans {d e : Int} {s u t : State} (hsu : NetMove d s u) (hut : NetMove e u t) : NetMove (d + e) s t where
  build := hut.build.trans hsu.build
  cnt := by rw [hut.cnt, hsu.build, hsu.cnt, wrapInt_wrapInt_add, add_assoc]
  phase := by
    have hfirst := hsu.phase
    have hrest := hut.phase
    omega

/-- CNT after a move is an intCNT_W again (43_counter_sync.md R170). -/
theorem NetMove.inIntN_cnt {d : Int} {s u : State} (h : NetMove d s u) (hw : 1 ≤ s.build.cntW) :
    inIntN u.build.cntW u.cnt = true := by
  rw [h.build, h.cnt]
  exact wrapInt_inIntN hw _

theorem toNat_add_one (x : BitVec 2) : (x + 1).toNat = (x.toNat + 1) % 4 := BitVec.toNat_add x 1

/-- The table moves the phase's code by minus the delta, modulo 4 (40_decoder.md R100). -/
theorem decoderEvent_phaseCode (n : Levels) (s : State) :
    (((phaseCode (decoderEvent n s).phase).toNat : Int) - (phaseCode s.phase).toNat + (transition s.phase n).2.2) % 4 = 0 := by
  rcases decoderEvent_cases n s with ⟨hno, he⟩ | ⟨q, d, ht, he⟩ <;> rw [he]
  · rw [(transition_ignore (Prod.ext hno rfl)).2]
    simp
  · simp only [ht, atomicAdd_phase, setDecoder_phase]
    obtain ⟨-, -, ⟨rfl, hq⟩ | ⟨rfl, hq⟩⟩ := transition_accept ht
    · rw [hq, toNat_add_one]
      omega
    · rw [← hq, toNat_add_one]
      omega

theorem netMove_of_exec {i : Instr} {s u : State} (hi : isDecoderEvent i = true)
    (hcnt : inIntN s.build.cntW s.cnt = true) (h : exec i s = .next u) : NetMove (eventDelta i s) s u := by
  obtain ⟨hr, n, rfl, hdelta⟩ := exec_isDecoderEvent hi h
  exact hdelta ▸ ⟨exec_build h, decoderEvent_cnt hr.one_le_cntW hcnt, decoderEvent_phaseCode n s⟩

/-- A walk of decoder events moves CNT and PHASE by the sum of its deltas (40_decoder.md R106). -/
theorem netMove_of_runEvents {is : List Instr} {s t : State} (his : ∀ i ∈ is, isDecoderEvent i = true)
    (hw : 1 ≤ s.build.cntW) (hcnt : inIntN s.build.cntW s.cnt = true) (h : runEvents is s = some t) :
    NetMove (sumEvents eventDelta is s) s t := by
  induction is generalizing s with
  | nil =>
    cases h
    exact .refl hw hcnt
  | cons i is ih =>
    obtain ⟨hi, hrest⟩ := List.forall_mem_cons.1 his
    obtain ⟨u, hexec, hrun⟩ := (runEvents_cons_eq_some_iff i is s t).1 h
    have hmove := netMove_of_exec hi hcnt hexec
    rw [sumEvents_cons_of_next hexec]
    exact hmove.trans (ih hrest (hmove.build ▸ hw) (hmove.inIntN_cnt hw) hrun)

/-- Settles O22, by induction on the walk; in a closed walk the phase's code has not moved, so 4 divides the sum. -/
theorem walkCountsItsTurns : Obligations.WalkCountsItsTurns := by
  intro is s t his hr hcnt h
  have hmove := netMove_of_runEvents his hr.one_le_cntW hcnt h
  refine ⟨hmove.cnt, hmove.phase, fun hclosed => ⟨-(sumEvents eventDelta is s / 4), ?_⟩⟩
  have hphase := hmove.phase
  rw [hclosed] at hphase
  omega

end Sys2Proof.Machine
end

section
/-!
PROOFS of the statements of 41_sample_clock.md: the three outcomes of TICK and their frame, the advance of the deadline
by one period, the deadlines of a run, the wait after an overrun, and the first TICK after RESET.
-/

namespace Sys2Proof.Machine

/-! ### The outcomes of TICK -/

theorem exec_tick_of_running {s : State} (h : Running s) : exec .tick s = .next (tickEvent s) := afterReset_of_running h

theorem tickEvent_of_nan {s : State} (h : ¬ NoNaN s) : tickEvent s = markFault .numericNaN (setCnt 0 s) := by
  simpa [h] using tickEvent_cases s

theorem tickEvent_of_not_wakeFits {s : State} (hn : NoNaN s) (hw : ¬ WakeFits s) :
    tickEvent s = markFault .wakeOverflow (publish (iterationOf s) (setCnt 0 s)) := by
  simpa [hn, hw] using tickEvent_cases s

theorem tickEvent_of_wakeFits {s : State} (hn : NoNaN s) (hw : WakeFits s) : tickEvent s = tickDone s := by
  simpa [hn, hw] using tickEvent_cases s

/-- Settles O25: the values of the pseudocode are those of `iterationOf`, and each outcome is one of its conditions. -/
theorem tickResult : Obligations.TickResult := by
  intro s hr
  rw [exec_tick_of_running hr]
  refine ⟨fun hnan => ?_, fun hn hlate => ?_, fun hn hfits => ?_⟩
  · rw [tickEvent_of_nan fun hn => Bool.false_ne_true (hn.symm.trans hnan)]
    rfl
  · rw [tickEvent_of_not_wakeFits hn (Nat.not_lt.2 hlate), publish_eq]
    rfl
  · rw [tickEvent_of_wakeFits hn hfits, tickDone, publish_eq]
    rfl

/-- Settles O26: whatever its outcome a TICK only appends to OUT, and each fault stops it before the elements named. -/
theorem tickFrame : Obligations.TickFrame := by
  intro s t h
  obtain ⟨⟨_, hf, _, _⟩, rfl⟩ := (exec_tick_next_iff s t).1 h
  obtain ⟨hdec, harg, href, hseen, hcnt⟩ := tickEvent_frame s
  refine ⟨hdec, harg, href, hseen, hcnt, ?_, ?_⟩
  · rcases tickEvent_out_cases s with hout | hout
    · exact ⟨[], by rw [hout, List.append_nil]⟩
    · exact ⟨_, hout⟩
  · rcases tickEvent_cases s with ⟨_, he⟩ | ⟨_, _, he⟩ | ⟨_, _, he⟩ <;> rw [he]
    · exact .inr (.inl ⟨rfl, rfl, rfl, rfl, rfl, rfl⟩)
    · exact .inr (.inr ⟨rfl, rfl, rfl⟩)
    · exact .inl hf

/-! ### The advance of the deadline -/

theorem tickEvent_of_unfaulted {s : State} (h : (tickEvent s).faulted = none) : WakeFits s ∧ tickEvent s = tickDone s := by
  rcases tickEvent_cases s with ⟨_, he⟩ | ⟨_, _, he⟩ | ⟨_, hw, he⟩
  · simp [he] at h
  · simp [he] at h
  · exact ⟨hw, he⟩

theorem tickDone_wakeSec {s : State} (hw : WakeFits s) :
    (tickDone s).wakeSec.toNat = s.wakeSec.toNat + (s.wakeNsec.toNat + s.build.periodNs) / 10 ^ 9 :=
  Nat.mod_eq_of_lt hw

/-- The 64-bit register holds nanoseconds below 10^9 as they are (10_state.md R25). -/
theorem toNat_ofNat_nsec {x : Nat} (h : x < 10 ^ 9) : (BitVec.ofNat 64 x).toNat = x :=
  Nat.mod_eq_of_lt (h.trans (by decide))

theorem tickDone_wakeNsec (s : State) :
    (tickDone s).wakeNsec.toNat = (s.wakeNsec.toNat + s.build.periodNs) % 10 ^ 9 :=
  toNat_ofNat_nsec (Nat.mod_lt _ (by decide))

/-- The carried seconds and the remaining nanoseconds together are the old deadline and one period (41_sample_clock.md
R123). -/
theorem deadline_tickDone {s : State} (hw : WakeFits s) : deadline (tickDone s) = deadline s + s.build.periodNs := by
  rw [deadline, tickDone_wakeSec hw, tickDone_wakeNsec, deadline]
  omega

theorem deadline_of_exec_tick {s t : State} (h : exec .tick s = .next t) (hf : t.faulted = none) :
    deadline t = deadline s + s.build.periodNs := by
  obtain ⟨_, rfl⟩ := (exec_tick_next_iff s t).1 h
  obtain ⟨hw, he⟩ := tickEvent_of_unfaulted hf
  rw [he, deadline_tickDone hw]

/-- Settles O28: a period below one second carries at most one second. -/
theorem advanceAddsOnePeriod : Obligations.AdvanceAddsOnePeriod := by
  intro s t h hf
  obtain ⟨_, rfl⟩ := (exec_tick_next_iff s t).1 h
  obtain ⟨hw, he⟩ := tickEvent_of_unfaulted hf
  have hsec := tickDone_wakeSec hw
  have hnsec := tickDone_wakeNsec s
  rw [he]
  refine ⟨deadline_tickDone hw, by omega, fun hperiod hlt => ?_⟩
  rcases Nat.lt_or_ge (s.wakeNsec.toNat + s.build.periodNs) (10 ^ 9) with hno | hcarry
  · exact .inl ⟨hno, BitVec.eq_of_toNat_eq (by omega), by omega⟩
  · exact .inr ⟨hcarry, by omega, by omega⟩

/-! ### The wait -/

theorem waitReturns_iff (now : Nat) (s : State) : waitReturns now s = true ↔ deadline s ≤ now := decide_eq_true_iff

/-- Settles O30: the deadline served and the next one are both past. -/
theorem overrunWaitReturnsAtOnce : Obligations.OverrunWaitReturnsAtOnce := by
  refine ⟨waitReturns_iff, fun now s t h hf hover => ?_⟩
  have hnext := deadline_of_exec_tick h hf
  exact ⟨(waitReturns_iff now s).2 (by omega), (waitReturns_iff now t).2 (by omega)⟩

/-! ### The deadlines of a run -/

theorem countTicks_cons (i : Instr) (is : List Instr) : countTicks (i :: is) = countTicks [i] + countTicks is :=
  List.count_append (l₁ := [i])

theorem deadline_decoderEvent (n : Levels) (s : State) : deadline (decoderEvent n s) = deadline s := by
  obtain ⟨⟨hsec, hnsec, -⟩, -⟩ := decoderEvent_frame n s
  rw [deadline, hsec, hnsec, deadline]

/-- One event other than RESET: a TICK advances the deadline by one period, a decoder event leaves it. -/
theorem deadline_of_exec {i : Instr} {s t : State} (hi : i ≠ .reset) (h : exec i s = .next t) (hf : t.faulted = none) :
    deadline t = deadline s + countTicks [i] * s.build.periodNs := by
  cases i with
  | edge c l =>
    obtain ⟨_, rfl⟩ := (exec_edge_next_iff c l s t).1 h
    simp [deadline_decoderEvent, countTicks]
  | pair a b =>
    obtain ⟨_, rfl⟩ := (exec_pair_next_iff a b s t).1 h
    simp [deadline_decoderEvent, countTicks]
  | tick => simp [deadline_of_exec_tick h hf, countTicks]
  | reset => exact absurd rfl hi

/-- A run that ends unfaulted starts unfaulted, for a marked state has no step (10_state.md R29). -/
theorem unfaulted_of_runEvents {is : List Instr} {s t : State} (h : runEvents is s = some t) (hf : t.faulted = none) :
    s.faulted = none := by
  cases is with
  | nil => cases h; exact hf
  | cons i is =>
    obtain ⟨u, hexec, -⟩ := (runEvents_cons_eq_some_iff i is s t).1 h
    by_contra hmarked
    exact exec_ne_next_of_marked (.inl hmarked) i u hexec

/-- The drift-free law (41_sample_clock.md R124), by induction on the run. -/
theorem deadline_of_runEvents {is : List Instr} {s t : State} (hreset : Instr.reset ∉ is) (h : runEvents is s = some t)
    (hf : t.faulted = none) : deadline t = deadline s + countTicks is * s.build.periodNs := by
  induction is generalizing s with
  | nil =>
    cases h
    simp [countTicks]
  | cons i is ih =>
    obtain ⟨hi, hrest⟩ := List.ne_and_not_mem_of_not_mem_cons hreset
    obtain ⟨u, hexec, hrun⟩ := (runEvents_cons_eq_some_iff i is s t).1 h
    have hfirst := deadline_of_exec hi.symm hexec (unfaulted_of_runEvents hrun hf)
    rw [ih hrest hrun, hfirst, exec_build hexec, countTicks_cons i is, add_mul, add_assoc]

theorem deadline_resetEvent {s : State} (hb : buildValid s.build = true) :
    deadline (resetEvent s) = s.build.t0Sec.toNat * 10 ^ 9 + s.build.t0Nsec := by
  obtain ⟨_, _, _, hnsec, -⟩ := buildValid_conditions hb
  exact congrArg (s.build.t0Sec.toNat * 10 ^ 9 + ·) (toNat_ofNat_nsec hnsec)

/-- Settles O29: the law of any run, and T0 as the deadline that a RESET leaves. -/
theorem deadlinesDoNotDrift : Obligations.DeadlinesDoNotDrift := by
  refine ⟨fun is s t => deadline_of_runEvents, fun is s r t hreset hexec hrun hf => ?_⟩
  rw [deadline_of_runEvents hreset hrun hf, exec_build hexec]
  obtain ⟨hb, _, _, rfl⟩ := (exec_reset_next_iff s r).1 hexec
  rw [deadline_resetEvent hb]

/-! ### The first TICK after RESET -/

/-- A valid build's velocity gain is finite and carries no sign (00_scope.md R9, R10). -/
theorem kVel_eq_fin {b : Build} (hb : buildValid b = true) : ∃ m, kVel b = .fin false m := by
  obtain ⟨_, _, _, _, _, _, _, _, _, hk, _⟩ := buildValid_conditions hb
  unfold kVel ratioToNum flVal at *
  split_ifs at hk ⊢
  · cases hk
  · exact ⟨_, rfl⟩
  · cases hk

/-- A delta of 0, as when no edge was accepted, has the velocity +0.0 (42_controller.md R140). -/
theorem velocity_zero {b : Build} (hb : buildValid b = true) : velocity b 0 = posZero := by
  obtain ⟨m, hm⟩ := kVel_eq_fin hb
  have hzero : intToNum b.numFmt 0 = .fin false 0 := by
    simpa [intToNum] using flVal_zero b.numFmt false Nat.one_pos
  rw [velocity, hm, hzero, mulVal_zero_left]
  rfl

/-- With the velocity +0.0, the first iteration reads none of the OPEN parameters of a default build. -/
theorem iterationOf_resetOf_default {cpr : Nat} {sec : Word64} {nsec : Nat} {e : Endian}
    (hb : buildValid (Config.defaultBuildWith cpr sec nsec e) = true) :
    iterationOf (State.resetOf (Config.defaultBuildWith cpr sec nsec e)) = iterationOf State.reset := by
  have hv : velocity (Config.defaultBuildWith cpr sec nsec e) 0 = velocity Config.resetBuild 0 :=
    (velocity_zero hb).trans (velocity_zero (by decide)).symm
  show iterate (Config.defaultBuildWith cpr sec nsec e) 0 _ _ = iterate Config.resetBuild 0 _ _
  unfold iterate
  rw [hv]
  rfl

/-- What a TICK without NaN leaves in OUT and the history, whether or not the deadline's seconds fit. -/
theorem tickEvent_published {s : State} (hn : NoNaN s) :
    (tickEvent s).out = s.out ++ [actRecord s.build (iterationOf s), smpRecord s.build s.wakeSec s.wakeNsec (iterationOf s)] ∧
    (tickEvent s).ePrev = numOf s.build.numFmt (iterationOf s).e ∧
    (tickEvent s).uPrev = numOf s.build.numFmt (iterationOf s).u := by
  by_cases hw : WakeFits s
  · rw [tickEvent_of_wakeFits hn hw, tickDone, publish_eq]
    exact ⟨rfl, rfl, rfl⟩
  · rw [tickEvent_of_not_wakeFits hn hw, publish_eq]
    exact ⟨rfl, rfl, rfl⟩

/-- The patterns of the source's first iteration (95_test_vectors.md V-L1-7), by evaluating it at the reset state. -/
theorem iterationOf_reset_patterns :
    iterationNaN (iterationOf State.reset) = false ∧
    numOf .binary32 (iterationOf State.reset).v = .b32 0x00000000#32 ∧
    numOf .binary32 (iterationOf State.reset).e = .b32 0x42A00000#32 ∧
    numOf .binary32 (iterationOf State.reset).u = .b32 0x3EDF6FD2#32 ∧
    actRecord Config.resetBuild (iterationOf State.reset) = .act .forward (.b32 0x3D94F537#32) := by decide

/-- Settles O39: the first iteration is that of the machine's own reset state, whatever CPR and T0. -/
theorem firstTickScenario : Obligations.FirstTickScenario := by
  intro cpr sec nsec e b hb
  have hit : iterationOf (State.resetOf b) = iterationOf State.reset := iterationOf_resetOf_default hb
  have hv : (iterationOf (State.resetOf b)).v = posZero := velocity_zero hb
  obtain ⟨hn, hvBits, he, hu, hact⟩ := iterationOf_reset_patterns
  obtain ⟨hout, hePrev, huPrev⟩ := tickEvent_published (s := State.resetOf b) ((congrArg iterationNaN hit).trans hn)
  refine ⟨hv, _, exec_tick_of_running ⟨hb, rfl, rfl, rfl⟩, ?_, ?_, ?_⟩
  · rw [hout, hit]
    exact congrArg₂ (fun act smp => [act, smp]) hact (congrArg₂ (Record.smp sec _) hvBits hu)
  · rw [hePrev, hit]; exact he
  · rw [huPrev, hit]; exact hu

end Sys2Proof.Machine
end

section
/-!
PROOFS of the statements of 42_controller.md: the magnitudes of a default build's iteration, saturation, the laws of an
iteration, the deadband's one cycle, and the conversions and products that are exact.
-/

namespace Sys2Proof.Machine

/-! ### Bounds on magnitudes -/

/-- The value is finite and at most 2^k in magnitude. -/
def AtMost (f : NumFmt) (k : Nat) (x : NumVal) : Prop := ∃ neg m, x = .fin neg m ∧ m ≤ 2 ^ (k + fmtUnitExp f)

theorem AtMost.isFinite {f : NumFmt} {k : Nat} {x : NumVal} (h : AtMost f k x) : isFinite x = true := by
  obtain ⟨_, _, rfl, _⟩ := h
  rfl

theorem AtMost.mono {f : NumFmt} {j k : Nat} {x : NumVal} (h : AtMost f j x) (hjk : j ≤ k) : AtMost f k x := by
  obtain ⟨neg, m, rfl, hm⟩ := h
  exact ⟨neg, m, rfl, hm.trans (Nat.pow_le_pow_right two_pos (Nat.add_le_add_right hjk _))⟩

theorem AtMost.negVal {f : NumFmt} {k : Nat} {x : NumVal} (h : AtMost f k x) : AtMost f k (negVal x) := by
  obtain ⟨neg, m, rfl, hm⟩ := h
  exact ⟨!neg, m, rfl, hm⟩

theorem representable_two_pow (f : NumFmt) (neg : Bool) {k : Nat} (h : k < fmtTopExp f) :
    representable f (.fin neg (2 ^ k)) = true :=
  (representable_fin_iff _ _ _).2 ⟨fitsPrec_two_pow f k, (bitLength_le_iff _ _).2 (Nat.pow_lt_pow_right (by decide) h)⟩

/-- An exact result of at most 2^k, a power of two within the format's range, is rounded to such a value. -/
theorem flVal_atMost {f : NumFmt} {k num den : Nat} (neg : Bool) (hk : k + fmtUnitExp f < fmtTopExp f) (hd : 0 < den)
    (h : num ≤ 2 ^ (k + fmtUnitExp f) * den) : AtMost f k (flVal f neg num den) := by
  obtain ⟨m, hfl, hm⟩ := flVal_le f neg hd (representable_two_pow f false hk) h
  exact ⟨neg, m, hfl, hm⟩

theorem mulVal_atMost {f : NumFmt} {j k : Nat} {x y : NumVal} (hx : AtMost f j x) (hy : AtMost f k y)
    (hjk : j + k + fmtUnitExp f < fmtTopExp f) : AtMost f (j + k) (mulVal f x y) := by
  obtain ⟨sa, ma, rfl, ha⟩ := hx
  obtain ⟨sb, mb, rfl, hb⟩ := hy
  refine flVal_atMost _ hjk (Nat.two_pow_pos _) ?_
  calc ma * mb ≤ 2 ^ (j + fmtUnitExp f) * 2 ^ (k + fmtUnitExp f) := Nat.mul_le_mul ha hb
    _ = 2 ^ (j + k + fmtUnitExp f) * 2 ^ fmtUnitExp f := by ring

theorem natAbs_signedMag (neg : Bool) (m : Nat) : (signedMag neg m).natAbs = m := by cases neg <;> simp [signedMag]

theorem addVal_atMost {f : NumFmt} {k : Nat} {x y : NumVal} (hx : AtMost f k x) (hy : AtMost f k y)
    (hk : k + 1 + fmtUnitExp f < fmtTopExp f) : AtMost f (k + 1) (addVal f x y) := by
  obtain ⟨sa, ma, rfl, ha⟩ := hx
  obtain ⟨sb, mb, rfl, hb⟩ := hy
  unfold addVal addFin
  simp only
  split_ifs
  · exact ⟨_, 0, rfl, Nat.zero_le _⟩
  · refine flVal_atMost _ hk Nat.one_pos ?_
    calc (signedMag sa ma + signedMag sb mb).natAbs
      _ ≤ ma + mb := by simpa only [natAbs_signedMag] using Int.natAbs_add_le (signedMag sa ma) (signedMag sb mb)
      _ ≤ 2 ^ (k + fmtUnitExp f) + 2 ^ (k + fmtUnitExp f) := Nat.add_le_add ha hb
      _ = 2 ^ (k + 1 + fmtUnitExp f) * 1 := by ring

theorem subVal_atMost {f : NumFmt} {k : Nat} {x y : NumVal} (hx : AtMost f k x) (hy : AtMost f k y)
    (hk : k + 1 + fmtUnitExp f < fmtTopExp f) : AtMost f (k + 1) (subVal f x y) :=
  addVal_atMost hx hy.negVal hk

theorem intToNum_atMost {f : NumFmt} {k : Nat} {n : Int} (hn : n.natAbs ≤ 2 ^ k)
    (hk : k + fmtUnitExp f < fmtTopExp f) : AtMost f k (intToNum f n) := by
  refine flVal_atMost _ hk Nat.one_pos ?_
  rw [Nat.mul_one, pow_add]
  exact Nat.mul_le_mul_right _ hn

theorem ratioToNum_atMost {f : NumFmt} {k p q : Nat} (hq : 0 < q) (h : p ≤ 2 ^ k * q)
    (hk : k + fmtUnitExp f < fmtTopExp f) : AtMost f k (ratioToNum f p q) := by
  rw [ratioToNum, if_neg hq.ne']
  refine flVal_atMost _ hk hq ?_
  calc p * 2 ^ fmtUnitExp f ≤ 2 ^ k * q * 2 ^ fmtUnitExp f := Nat.mul_le_mul_right _ h
    _ = 2 ^ (k + fmtUnitExp f) * q := by ring

/-- A value within symmetric finite limits is finite (42_controller.md R150, of U_PREV). -/
theorem eq_fin_of_within {lim : Nat} {x : NumVal} (h : within (.fin true lim) (.fin false lim) x = true) :
    ∃ neg m, x = .fin neg m ∧ m ≤ lim := by
  cases x with
  | nan => cases h
  | inf neg => cases neg <;> cases h
  | fin neg m => exact ⟨neg, m, rfl, (within_fin_iff lim m neg).1 h⟩

/-! ### The default build -/

section DefaultBuild

variable {b : Build} (hdef : defaultParameters b) (hb : buildValid b = true)
include hdef

theorem numFmt_of_default : b.numFmt = .binary32 := by
  obtain ⟨_, _, _, _, rfl⟩ := hdef
  rfl

theorem cntW_of_default : b.cntW = 32 := by
  obtain ⟨_, _, _, _, rfl⟩ := hdef
  rfl

theorem periodNs_of_default : b.periodNs = 10 ^ 8 := by
  obtain ⟨_, _, _, _, rfl⟩ := hdef
  rfl

/-- The default setpoint is below 2^7, the coefficients are at most 1 in magnitude (00_scope.md R8). -/
theorem params_atMost_of_default :
    AtMost .binary32 7 (numVal b.sp) ∧ AtMost .binary32 0 (numVal b.b0) ∧ AtMost .binary32 0 (numVal b.b1) ∧
    AtMost .binary32 0 (numVal b.a1) := by
  obtain ⟨_, _, _, _, rfl⟩ := hdef
  exact ⟨⟨_, _, rfl, by decide⟩, ⟨_, _, rfl, by decide⟩, ⟨_, _, rfl, by decide⟩, ⟨_, _, rfl, by decide⟩⟩

/-- The default voltage limit is 6 (00_scope.md R8). -/
theorem vMax_of_default : numVal b.vMax = .fin false (6 * 2 ^ 149) := by
  obtain ⟨_, _, _, _, rfl⟩ := hdef
  exact (by decide : numVal (.b32 0x40C00000#32) = .fin false (6 * 2 ^ 149))

include hb

/-- With the default period, K_VEL is 600 / CPR, rounded (00_scope.md R9). -/
theorem kVel_atMost_of_default : AtMost .binary32 10 (kVel b) := by
  obtain ⟨_, hcpr, -⟩ := buildValid_conditions hb
  rw [kVel, numFmt_of_default hdef, periodNs_of_default hdef]
  exact ratioToNum_atMost (by omega) (by omega) (by decide)

theorem velocity_atMost_of_default {delta : Int} (hdelta : delta.natAbs ≤ 2 ^ 31) :
    AtMost .binary32 41 (velocity b delta) := by
  rw [velocity, numFmt_of_default hdef]
  have hn : AtMost .binary32 31 (intToNum .binary32 delta) := intToNum_atMost hdelta (by decide)
  have hv := mulVal_atMost hn (kVel_atMost_of_default hdef hb) (by decide)
  exact hv

omit hb

theorem errorOf_atMost_of_default {v : NumVal} (hv : AtMost .binary32 41 v) : AtMost .binary32 42 (errorOf b v) := by
  obtain ⟨hsp, -⟩ := params_atMost_of_default hdef
  rw [errorOf, numFmt_of_default hdef]
  exact subVal_atMost (hsp.mono (by decide)) hv (by decide)

theorem piRaw_atMost_of_default {e ePrev uPrev : NumVal} (he : AtMost .binary32 42 e)
    (hePrev : AtMost .binary32 68 ePrev) (huPrev : AtMost .binary32 3 uPrev) :
    AtMost .binary32 70 (piRaw b e ePrev uPrev) := by
  obtain ⟨-, hb0, hb1, ha1⟩ := params_atMost_of_default hdef
  rw [piRaw, numFmt_of_default hdef]
  have hp0 := mulVal_atMost hb0 he (by decide)
  have hp1 := mulVal_atMost hb1 hePrev (by decide)
  have hpa := mulVal_atMost ha1 huPrev (by decide)
  have hsum := addVal_atMost (hp0.mono (by decide)) hp1 (by decide)
  exact subVal_atMost hsum (hpa.mono (by decide)) (by decide)

end DefaultBuild

/-- The values of a default build's iteration, each with the bound its operator gives (42_controller.md R150). -/
theorem iterationOf_atMost_of_default {s : State} (hdef : defaultParameters s.build) (hb : buildValid s.build = true)
    (hg : Good s) (hsmall : SmallError s) :
    AtMost .binary32 41 (iterationOf s).v ∧ AtMost .binary32 42 (iterationOf s).e ∧
    AtMost .binary32 70 (iterationOf s).uRaw := by
  have hcnt : s.cnt.natAbs ≤ 2 ^ 31 := by
    have hin := (inIntN_iff _ _).1 hg.cnt
    rw [cntW_of_default hdef] at hin
    omega
  have hePrev : AtMost .binary32 68 (numVal s.ePrev) := numFmt_of_default hdef ▸ hsmall
  have huPrev : AtMost .binary32 3 (numVal s.uPrev) := by
    have hlim := hg.uLim
    rw [vMax_of_default hdef] at hlim
    obtain ⟨neg, m, hu, hm⟩ := eq_fin_of_within hlim
    exact ⟨neg, m, hu, hm.trans (by decide)⟩
  have hv := velocity_atMost_of_default hdef hb hcnt
  have he := errorOf_atMost_of_default hdef hv
  exact ⟨hv, he, piRaw_atMost_of_default hdef he hePrev huPrev⟩

theorem isNaN_of_isFinite {x : NumVal} (h : isFinite x = true) : isNaN x = false := by
  cases x with
  | nan => cases h
  | inf neg => rfl
  | fin neg m => rfl

/-- What an event can do when it has a step: the decoder event of some pair, a TICK, or a RESET. -/
theorem exec_next_cases {i : Instr} {s t : State} (h : exec i s = .next t) :
    (∃ n, t = decoderEvent n s) ∨ t = tickEvent s ∨ t = resetEvent s := by
  cases i with
  | edge c l => exact .inl ⟨_, ((exec_edge_next_iff c l s t).1 h).2.symm⟩
  | pair a b => exact .inl ⟨_, ((exec_pair_next_iff a b s t).1 h).2.symm⟩
  | tick => exact .inr (.inl ((exec_tick_next_iff s t).1 h).2.symm)
  | reset =>
    obtain ⟨-, -, -, rfl⟩ := (exec_reset_next_iff s t).1 h
    exact .inr (.inr rfl)

/-- Only a TICK that meets a NaN sets the mark NumericNaN (42_controller.md R150). -/
theorem faulted_ne_numericNaN_of_exec {i : Instr} {s t : State} (hn : NoNaN s) (h : exec i s = .next t) :
    t.faulted ≠ some .numericNaN := by
  have hs : s.faulted = none := by
    by_contra hmarked
    exact exec_ne_next_of_marked (.inl hmarked) i t h
  rcases exec_next_cases h with ⟨n, rfl⟩ | rfl | rfl
  · obtain ⟨-, ⟨hf, -⟩, -⟩ := decoderEvent_frame n s
    simp [hf, hs]
  · by_cases hw : WakeFits s
    · simp [tickEvent_of_wakeFits hn hw, tickDone, publish_eq, hs]
    · simp [tickEvent_of_not_wakeFits hn hw]
  · simp [resetEvent, hs]

/-- A decoder event keeps the history, a TICK without NaN stores its error, RESET stores +0.0 (42_controller.md R149,
70_reset_and_hazards.md R230). -/
theorem numVal_ePrev_of_exec {i : Instr} {s t : State} (hn : NoNaN s) (h : exec i s = .next t) :
    numVal t.ePrev = numVal s.ePrev ∨ numVal t.ePrev = (iterationOf s).e ∨ numVal t.ePrev = posZero := by
  rcases exec_next_cases h with ⟨n, rfl⟩ | rfl | rfl
  · obtain ⟨⟨-, -, he, -⟩, -⟩ := decoderEvent_frame n s
    exact .inl (congrArg numVal he)
  · obtain ⟨-, he, -⟩ := tickEvent_published hn
    exact .inr (.inl ((congrArg numVal he).trans (numVal_numOf_e s)))
  · exact .inr (.inr (numVal_zeroNum _))

theorem buildValid_of_exec {i : Instr} {s t : State} (h : exec i s = .next t) : buildValid s.build = true := by
  by_contra hb
  rw [exec_of_invalid (Bool.eq_false_of_not_eq_true hb) i] at h
  cases h

/-- Settles O38: every intermediate value keeps far below 2^128, and the new error below 2^42. -/
theorem defaultBuildStaysFinite : Obligations.DefaultBuildStaysFinite := by
  intro i s t hdef hg hsmall h
  obtain ⟨hv, he, hu⟩ := iterationOf_atMost_of_default hdef (buildValid_of_exec h) hg hsmall
  have hn : NoNaN s := (noNaN_iff s).2
    ⟨isNaN_of_isFinite hv.isFinite, isNaN_of_isFinite he.isFinite, isNaN_of_isFinite hu.isFinite⟩
  refine ⟨hv.isFinite, he.isFinite, hu.isFinite, faulted_ne_numericNaN_of_exec hn h, ?_⟩
  change AtMost t.build.numFmt 68 (numVal t.ePrev)
  rw [exec_build h]
  rcases numVal_ePrev_of_exec hn h with hold | hnew | hzero
  · rw [hold]; exact hsmall
  · rw [hnew, numFmt_of_default hdef]; exact he.mono (by decide)
  · rw [hzero]; exact ⟨false, 0, rfl, Nat.zero_le _⟩

/-! ### Saturation -/

theorem nonneg_fin (neg : Bool) (m : Nat) : nonneg (.fin neg m) = !decide (signedMag neg m < 0) := rfl

theorem nonneg_fin_true {m : Nat} (hm : 0 < m) : nonneg (.fin true m) = false := by
  simp [nonneg_fin, signedMag, hm]

/-- What lies above a positive limit is non-negative (42_controller.md R144). -/
theorem nonneg_of_gtVal {lim : Nat} : ∀ {x : NumVal}, gtVal x (.fin false lim) = true → nonneg x = true
  | .nan, h => nomatch h
  | .inf true, h => nomatch h
  | .inf false, _ => rfl
  | .fin neg m, h => by
    have habove : (lim : Int) < signedMag neg m := of_decide_eq_true h
    rw [nonneg_fin, decide_eq_false (by omega), Bool.not_false]

/-- What lies below a negative limit is negative (42_controller.md R144). -/
theorem nonneg_of_ltVal {lim : Nat} : ∀ {x : NumVal}, ltVal x (.fin true lim) = true → nonneg x = false
  | .nan, h => nomatch h
  | .inf true, _ => rfl
  | .inf false, h => nomatch h
  | .fin neg m, h => by
    have hbelow : signedMag neg m < -(lim : Int) := of_decide_eq_true h
    rw [nonneg_fin, decide_eq_true (by omega), Bool.not_true]

theorem sat_of_below {b : Build} (hb : buildValid b = true) {x : NumVal} (h : ltVal x (negVal (numVal b.vMax)) = true) :
    sat b x = negVal (numVal b.vMax) := by
  obtain ⟨lim, hv, -⟩ := buildValid_vMax hb
  have hnot : ¬ gtVal x (numVal b.vMax) = true := fun habove => by
    rw [hv] at h habove
    exact Bool.false_ne_true ((nonneg_of_ltVal h).symm.trans (nonneg_of_gtVal habove))
  rw [sat, if_neg hnot, if_pos h]

theorem sat_of_within {b : Build} (hb : buildValid b = true) {x : NumVal} (hx : isNaN x = false)
    (h : within (negVal (numVal b.vMax)) (numVal b.vMax) x = true) : sat b x = x := by
  obtain ⟨lim, hv, -⟩ := buildValid_vMax hb
  rw [hv] at h
  obtain ⟨hlow, hhigh⟩ := (within_iff rfl rfl hx).1 h
  simp [sat, gtVal, hv, hlow, hhigh]

/-- Both limits are nonzero, so each has the sign class of what it replaces (42_controller.md R143). -/
theorem nonneg_sat {b : Build} (hb : buildValid b = true) (x : NumVal) : nonneg (sat b x) = nonneg x := by
  obtain ⟨lim, hv, hpos, -⟩ := buildValid_vMax hb
  unfold sat
  rw [hv]
  split_ifs with habove hbelow
  · rw [nonneg_of_gtVal habove]
    exact (nonneg_fin_iff false lim).2 (.inl rfl)
  · rw [nonneg_of_ltVal hbelow]
    exact nonneg_fin_true hpos
  · rfl

/-- Settles O33, clause by clause. -/
theorem saturationClamps : Obligations.SaturationClamps := fun _ x hb hx =>
  ⟨fun h => if_pos h, sat_of_below hb, sat_of_within hb hx, within_vMax_sat hb hx, nonneg_sat hb x⟩

/-! ### The duty -/

theorem actuated_of_ne {u uPrev : NumVal} (h : nonneg u ≠ nonneg uPrev) : actuated u uPrev = posZero :=
  if_pos (bne_iff_ne.2 h)

theorem actuated_of_eq {u uPrev : NumVal} (h : nonneg u = nonneg uPrev) : actuated u uPrev = u :=
  if_neg (by simp [deadband, h])

/-- A value within the voltage limit is at most V_MAX in magnitude, so its quotient by V_MAX is at most 1
(42_controller.md R146). -/
theorem div_vMax_eq_fin {b : Build} (hb : buildValid b = true) {x : NumVal}
    (hx : within (negVal (numVal b.vMax)) (numVal b.vMax) x = true) :
    ∃ q, divVal b.numFmt (absVal x) (numVal b.vMax) = .fin false q ∧ q ≤ 2 ^ fmtUnitExp b.numFmt := by
  obtain ⟨lim, hv, hpos, -⟩ := buildValid_vMax hb
  rw [hv] at hx ⊢
  obtain ⟨neg, m, rfl, hm⟩ := eq_fin_of_within hx
  rw [absVal, divVal, if_neg hpos.ne']
  refine flVal_le b.numFmt false hpos (representable_two_pow _ _ (by cases b.numFmt <;> decide)) ?_
  rw [Nat.mul_comm]
  exact Nat.mul_le_mul_left _ hm

theorem within_zero_one_iff (f : NumFmt) (q : Nat) :
    within posZero (oneVal f) (.fin false q) = true ↔ q ≤ 2 ^ fmtUnitExp f := by
  rw [within_iff rfl rfl rfl]
  simp only [posZero, oneVal, ltVal, signedMag, Bool.false_eq_true, if_false, decide_eq_false_iff_not]
  omega

theorem clip01_of_le {f : NumFmt} {q : Nat} (h : q ≤ 2 ^ fmtUnitExp f) : clip01 f (.fin false q) = .fin false q := by
  obtain ⟨hlow, hhigh⟩ := (within_iff rfl rfl rfl).1 ((within_zero_one_iff f q).2 h)
  simp [clip01, gtVal, hlow, hhigh]

/-- Within the voltage limit the clip changes nothing (42_controller.md R146). -/
theorem dutyOf_of_within {b : Build} (hb : buildValid b = true) {x : NumVal}
    (hx : within (negVal (numVal b.vMax)) (numVal b.vMax) x = true) :
    dutyOf b x = divVal b.numFmt (absVal x) (numVal b.vMax) := by
  obtain ⟨q, hq, hle⟩ := div_vMax_eq_fin hb hx
  rw [dutyOf, hq, clip01_of_le hle]

theorem within_dutyOf {b : Build} (hb : buildValid b = true) {x : NumVal}
    (hx : within (negVal (numVal b.vMax)) (numVal b.vMax) x = true) :
    within posZero (oneVal b.numFmt) (dutyOf b x) = true := by
  obtain ⟨q, hq, hle⟩ := div_vMax_eq_fin hb hx
  rw [dutyOf_of_within hb hx, hq]
  exact (within_zero_one_iff _ q).2 hle

theorem dutyOf_posZero {b : Build} (hb : buildValid b = true) : dutyOf b posZero = posZero := by
  rw [dutyOf_of_within hb (within_vMax_posZero hb)]
  obtain ⟨lim, hv, hpos, -⟩ := buildValid_vMax hb
  rw [hv]
  exact divVal_zero_left b.numFmt false false hpos

/-- What is actuated, u or +0.0, is within the voltage limit (42_controller.md R145, R146). -/
theorem within_vMax_actuated {b : Build} (hb : buildValid b = true) {u : NumVal}
    (hu : within (negVal (numVal b.vMax)) (numVal b.vMax) u = true) (uPrev : NumVal) :
    within (negVal (numVal b.vMax)) (numVal b.vMax) (actuated u uPrev) = true := by
  by_cases h : nonneg u = nonneg uPrev
  · rw [actuated_of_eq h]; exact hu
  · rw [actuated_of_ne h]; exact within_vMax_posZero hb

theorem dirOf_eq_forward_iff (u : NumVal) : dirOf u = .forward ↔ nonneg u = true := by
  cases h : nonneg u <;> simp [dirOf, h]

/-- Settles O34: u is saturated, and the duty is that of u or of +0.0, both within the limit. -/
theorem controllerLaws : Obligations.ControllerLaws := by
  intro s hr hn _
  have hb : buildValid s.build = true := hr.1
  obtain ⟨-, -, huRaw⟩ := (noNaN_iff s).1 hn
  have hu : within (negVal (numVal s.build.vMax)) (numVal s.build.vMax) (iterationOf s).u = true :=
    within_vMax_sat hb huRaw
  refine ⟨?history, hu, within_dutyOf hb (within_vMax_actuated hb hu _), fun h => ?dead, fun h => ?live,
    dirOf_eq_forward_iff _⟩
  case history =>
    obtain ⟨-, hePrev, huPrev⟩ := tickEvent_published hn
    exact ⟨_, exec_tick_of_running hr, (congrArg numVal huPrev).trans (numVal_numOf_u hb),
      (congrArg numVal hePrev).trans (numVal_numOf_e s)⟩
  case dead => rw [iterationOf_duty, actuated_of_ne h, dutyOf_posZero hb]
  case live => rw [iterationOf_duty, actuated_of_eq h, dutyOf_of_within hb hu]

/-! ### The deadband from one iteration to the next -/

theorem iterationOf_db_iff (s : State) :
    (iterationOf s).db = true ↔ nonneg (iterationOf s).u ≠ nonneg (numVal s.uPrev) := bne_iff_ne

/-- Decoder events do not write U_PREV (20_memory.md R51). -/
theorem uPrev_of_runEvents {ds : List Instr} {s t : State} (hds : ∀ i ∈ ds, isDecoderEvent i = true)
    (h : runEvents ds s = some t) : t.uPrev = s.uPrev := by
  induction ds generalizing s with
  | nil => cases h; rfl
  | cons i ds ih =>
    obtain ⟨hi, hrest⟩ := List.forall_mem_cons.1 hds
    obtain ⟨u, hexec, hrun⟩ := (runEvents_cons_eq_some_iff i ds s t).1 h
    obtain ⟨-, n, rfl, -⟩ := exec_isDecoderEvent hi hexec
    obtain ⟨⟨-, -, -, hu, -⟩, -⟩ := decoderEvent_frame n s
    exact (ih hrest hrun).trans hu

theorem numVal_uPrev_tickDone {s : State} (hb : buildValid s.build = true) :
    numVal (tickDone s).uPrev = (iterationOf s).u := numVal_numOf_u hb

/-- Settles O35: the next iteration still finds the U_PREV that the TICK, or RESET, left. -/
theorem deadbandLastsOneCycle : Obligations.DeadbandLastsOneCycle := by
  refine ⟨fun s t t' ds h hf hds hrun => ?_, fun s t t' ds h hds hrun => ?_⟩ <;>
    rw [iterationOf_db_iff, uPrev_of_runEvents hds hrun]
  · obtain ⟨⟨hb, -⟩, rfl⟩ := (exec_tick_next_iff s t).1 h
    obtain ⟨-, he⟩ := tickEvent_of_unfaulted hf
    rw [he, numVal_uPrev_tickDone hb]
  · obtain ⟨-, -, -, rfl⟩ := (exec_reset_next_iff s t).1 h
    have hzero : nonneg (numVal (resetEvent s).uPrev) = true := congrArg nonneg (numVal_zeroNum _)
    rw [hzero, ne_eq, Bool.not_eq_true]

/-! ### Exact conversions and products -/

/-- A count of whole ones that fits the precision has a pattern (00_scope.md R13). -/
theorem representable_scaled (f : NumFmt) (neg : Bool) {n : Nat} (hn : n ≤ 2 ^ fmtPrec f) :
    representable f (.fin neg (n * 2 ^ fmtUnitExp f)) = true := by
  refine (representable_fin_iff _ _ _).2 ⟨fitsPrec_shift f hn, (bitLength_le_iff _ _).2 ?_⟩
  calc n * 2 ^ fmtUnitExp f ≤ 2 ^ fmtPrec f * 2 ^ fmtUnitExp f := Nat.mul_le_mul_right _ hn
    _ = 2 ^ (fmtPrec f + fmtUnitExp f) := (pow_add ..).symm
    _ < 2 ^ fmtTopExp f := Nat.pow_lt_pow_right (by decide) (by cases f <;> decide)

/-- Settles O36: an integer of the precision's length is a value of the format; a zero delta gives a zero product. -/
theorem velocityOfSmallDeltas : Obligations.VelocityOfSmallDeltas := by
  refine ⟨fun f n hn => ?_, fun b hb => velocity_zero hb⟩
  simpa [intToNum] using flVal_exact f (decide (n < 0)) Nat.one_pos (representable_scaled f _ hn)

/-- A product with 1 or -1 is exact (42_controller.md R142). -/
theorem mulVal_signedOne_left {f : NumFmt} (sa sb : Bool) {m : Nat} (h : representable f (.fin (sa != sb) m) = true) :
    mulVal f (.fin sa (2 ^ fmtUnitExp f)) (.fin sb m) = .fin (sa != sb) m := by
  rw [mulVal, Nat.mul_comm, flVal_exact f _ (Nat.two_pow_pos _) h]

/-- Settles O37: the negation of a pattern's value is a value of the format, to which the exact product is rounded. -/
theorem minusOneNegatesExactly : Obligations.MinusOneNegatesExactly := by
  intro x hfmt hfin
  have hone : numVal (.b32 0xBF800000#32) = .fin true (2 ^ fmtUnitExp .binary32) := by decide
  have hneg := negVal_representable _ _ (hfmt ▸ numVal_representable x)
  cases hx : numVal x with
  | nan => rw [hx] at hfin; cases hfin
  | inf neg => rw [hx] at hfin; cases hfin
  | fin neg m =>
    rw [hx, negVal, ← Bool.true_bne] at hneg
    rw [hone, mulVal_signedOne_left true neg hneg, negVal, Bool.true_bne]

end Sys2Proof.Machine
end

section
/-!
PROOFS of the statements of 43_counter_sync.md: what a step takes from the input, the conservation of counts over a run,
and which traces EDGE_SLIP admits.
-/

namespace Sys2Proof.Machine

/-! ### What a step takes -/

/-- Settles O11: an event, and a refusal, leave the build and the words after their own. -/
theorem stepTakesOneWordAndKeepsBuild : Obligations.StepTakesOneWordAndKeepsBuild := by
  intro s t h
  rcases step_next_cases h with ⟨ht, rfl⟩ | ⟨w, rest, i, ht, -, hexec⟩ | ⟨w, rest, ht, -, -, rfl⟩
  · exact ⟨rfl, by rw [ht, List.tail_nil]⟩
  · exact ⟨exec_build (s := setTrace rest s) hexec, by rw [exec_trace hexec, ht, List.tail_cons, setTrace]⟩
  · exact ⟨rfl, by rw [ht, List.tail_cons]; rfl⟩

/-! ### Conservation of counts -/

/-- A decoder event adds its delta to CNT modulo 2^CNT_W, whatever CNT was (43_counter_sync.md R171). -/
theorem decoderEvent_cnt_modEq (n : Levels) (s : State) :
    (decoderEvent n s).cnt ≡ s.cnt + (transition s.phase n).2.2 [ZMOD 2 ^ s.build.cntW] := by
  rcases decoderEvent_cases n s with ⟨hno, he⟩ | ⟨q, d, ht, he⟩ <;> rw [he]
  · rw [(transition_ignore (Prod.ext hno rfl)).2, add_zero]
  · rw [ht]
    exact wrapInt_emod _ _

/-- One event other than RESET: what it takes and the CNT it leaves are the old CNT and its delta (43_counter_sync.md
R171, R172). -/
theorem take_add_cnt_of_exec {i : Instr} {s u : State} (hi : i ≠ .reset) (h : exec i s = .next u) :
    eventTake i s + u.cnt ≡ s.cnt + eventDelta i s [ZMOD 2 ^ s.build.cntW] := by
  cases i with
  | edge c l =>
    obtain ⟨-, rfl⟩ := (exec_edge_next_iff c l s u).1 h
    rw [eventTake, zero_add]
    exact decoderEvent_cnt_modEq _ s
  | pair a b =>
    obtain ⟨-, rfl⟩ := (exec_pair_next_iff a b s u).1 h
    rw [eventTake, zero_add]
    exact decoderEvent_cnt_modEq _ s
  | tick =>
    obtain ⟨-, rfl⟩ := (exec_tick_next_iff s u).1 h
    obtain ⟨-, -, -, -, hcnt⟩ := tickEvent_frame s
    rw [hcnt]
    rfl
  | reset => exact absurd rfl hi

/-- The conservation law of a run without RESET, by induction: the law of its first event, and that of the rest from
the state which that event leaves. -/
theorem takes_add_cnt_of_runEvents {is : List Instr} {s t : State} (hreset : Instr.reset ∉ is)
    (h : runEvents is s = some t) :
    sumEvents eventTake is s + t.cnt ≡ s.cnt + sumEvents eventDelta is s [ZMOD 2 ^ s.build.cntW] := by
  induction is generalizing s with
  | nil =>
    cases h
    rw [sumEvents, sumEvents, zero_add, add_zero]
  | cons i is ih =>
    obtain ⟨hi, hrest⟩ := List.ne_and_not_mem_of_not_mem_cons hreset
    obtain ⟨u, hexec, hrun⟩ := (runEvents_cons_eq_some_iff i is s t).1 h
    have hfirst := take_add_cnt_of_exec hi.symm hexec
    have hlater := ih hrest hrun
    rw [exec_build hexec] at hlater
    rw [sumEvents_cons_of_next hexec, sumEvents_cons_of_next hexec, add_assoc, ← add_assoc s.cnt]
    calc eventTake i s + (sumEvents eventTake is u + t.cnt)
      _ ≡ eventTake i s + (u.cnt + sumEvents eventDelta is u) [ZMOD 2 ^ s.build.cntW] := hlater.add_left _
      _ = eventTake i s + u.cnt + sumEvents eventDelta is u := (add_assoc _ _ _).symm
      _ ≡ s.cnt + eventDelta i s + sumEvents eventDelta is u [ZMOD 2 ^ s.build.cntW] := hfirst.add_right _

/-- Settles O24: it is the law of a run. -/
theorem countsAreConserved : Obligations.CountsAreConserved := fun _ _ _ => takes_add_cnt_of_runEvents

/-! ### The streams of a trace -/

theorem agentOf_eq_CTL_iff (i : Instr) : agentOf i = .CTL ↔ i = .tick := by cases i <;> simp [agentOf]

theorem agentOf_eq_ENV_iff (i : Instr) : agentOf i = .ENV ↔ i = .reset := by cases i <;> simp [agentOf]

/-- The agents of the events other than RESET are DEC and CTL (30_encoding.md R71). -/
theorem agentOf_ne_DEC_iff {i : Instr} (hi : i ≠ .reset) : ¬ agentOf i = .DEC ↔ agentOf i = .CTL := by
  have henv := mt (agentOf_eq_ENV_iff i).1 hi
  revert henv
  cases agentOf i <;> decide

theorem streamOf_DEC (t : List Timed) : streamOf .DEC t = t.filter fun x => isDecoderEvent x.event := rfl

theorem streamOf_CTL (t : List Timed) : streamOf .CTL t = t.filter fun x => x.event = .tick := by
  simp only [streamOf, agentOf_eq_CTL_iff]

/-- Without RESETs every event is a decoder event or a TICK. -/
theorem length_eq_streams {t : List Timed} (ht : ∀ x ∈ t, x.event ≠ .reset) :
    t.length = (streamOf .DEC t).length + (streamOf .CTL t).length := by
  rw [List.length_eq_length_filter_add (l := t) fun x => agentOf x.event = .DEC, streamOf, streamOf]
  congr 2
  refine List.filter_congr fun x hx => ?_
  rw [← decide_not]
  exact decide_eq_decide.2 (agentOf_ne_DEC_iff (ht x hx))

/-- Without RESETs the two streams determine the length of the trace. -/
theorem sameStreams_iff {phys t : List Timed} (hp : ∀ x ∈ phys, x.event ≠ .reset) (ht : ∀ x ∈ t, x.event ≠ .reset) :
    sameStreams phys t = true ↔ streamOf .DEC t = streamOf .DEC phys ∧ streamOf .CTL t = streamOf .CTL phys := by
  simp only [sameStreams, Bool.and_eq_true, decide_eq_true_eq, and_iff_left_iff_imp]
  rintro ⟨hdec, hctl⟩
  rw [length_eq_streams ht, length_eq_streams hp, hdec, hctl]

/-! ### Edges and deadlines -/

theorem noEdgeBefore_iff (d : Nat) (t : List Timed) :
    noEdgeBefore d t = true ↔ ∀ y ∈ t, isDecoderEvent y.event = true → d ≤ y.time := by
  simp [noEdgeBefore, isDecoderEvent, imp_iff_not_or]

/-- Every pair of a TICK and a later decoder event is looked at (43_counter_sync.md R176). -/
theorem edgesBeforeDeadlines_iff (t : List Timed) :
    edgesBeforeDeadlines t = true ↔
      t.Pairwise fun x y => x.event = .tick → isDecoderEvent y.event = true → x.time ≤ y.time := by
  induction t with
  | nil => simp [edgesBeforeDeadlines]
  | cons x rest ih =>
    rw [edgesBeforeDeadlines, Bool.and_eq_true, ih, List.pairwise_cons]
    refine and_congr_left' ?_
    by_cases hx : x.event = .tick
    · simp [hx, agentOf, noEdgeBefore_iff]
    · simp [hx, agentOf_eq_CTL_iff]

theorem admittedRun_iff (slip : Bool) (phys t : List Timed) :
    admittedRun slip phys t = true ↔ sameStreams phys t = true ∧ (slip = false → edgesBeforeDeadlines t = true) := by
  cases slip <;> simp [admittedRun]

/-- A run admitted without slip is admitted with it (43_counter_sync.md R176). -/
theorem admittedRun_true_of_false {phys t : List Timed} (h : admittedRun false phys t = true) :
    admittedRun true phys t = true :=
  (admittedRun_iff _ _ _).2 ⟨((admittedRun_iff _ _ _).1 h).1, nofun⟩

theorem streamOf_of_admittedRun {a : Agent} (ha : a ≠ .ENV) {slip : Bool} {phys t : List Timed}
    (h : admittedRun slip phys t = true) : streamOf a t = streamOf a phys := by
  obtain ⟨hsame, -⟩ := (admittedRun_iff slip phys t).1 h
  simp only [sameStreams, Bool.and_eq_true, decide_eq_true_eq] at hsame
  obtain ⟨⟨hdec, hctl⟩, -⟩ := hsame
  cases a with
  | DEC => exact hdec
  | CTL => exact hctl
  | ENV => exact absurd rfl ha

theorem sameStreams_self (t : List Timed) : sameStreams t t = true := by simp [sameStreams]

/-- A run whose instants do not fall is admitted as it stands, without slip. -/
theorem admittedRun_self {t : List Timed} (h : t.Pairwise fun x y => x.time ≤ y.time) : admittedRun false t t = true :=
  (admittedRun_iff _ _ _).2
    ⟨sameStreams_self t, fun _ => (edgesBeforeDeadlines_iff t).2 (h.imp fun hle _ _ => hle)⟩

/-! ### The stretches between RESETs -/

theorem segments_of_no_reset {t : List Timed} (ht : ∀ x ∈ t, x.event ≠ .reset) : segments t = [t] := by
  induction t with
  | nil => rfl
  | cons x rest ih =>
    obtain ⟨hx, hrest⟩ := List.forall_mem_cons.1 ht
    rw [segments, if_neg hx, ih hrest]

/-- The stretches one after another are the trace without its RESETs. -/
theorem flatten_segments (t : List Timed) : (segments t).flatten = t.filter fun x => x.event ≠ .reset := by
  induction t with
  | nil => rfl
  | cons x rest ih =>
    rw [segments]
    by_cases hx : x.event = .reset
    · simp [hx, ih]
    · cases hs : segments rest with
      | nil => simpa [hx, hs] using ih
      | cons g gs => simpa [hx, hs] using ih

theorem sublist_of_mem_segments {t g : List Timed} (hg : g ∈ segments t) : g.Sublist t := by
  have hflat := List.sublist_flatten_of_mem hg
  rw [flatten_segments] at hflat
  exact hflat.trans List.filter_sublist

/-- The stream of an agent that performs no RESET is that of the stretches, one after another. -/
theorem streamOf_eq_flatten {a : Agent} (ha : a ≠ .ENV) (t : List Timed) :
    streamOf a t = ((segments t).map (streamOf a)).flatten := by
  have hkeep : ∀ x : Timed, agentOf x.event = a → x.event ≠ .reset := fun x hagent hreset =>
    ha (hagent.symm.trans ((agentOf_eq_ENV_iff _).2 hreset))
  calc streamOf a t
    _ = streamOf a (t.filter fun x => x.event ≠ .reset) := by
      simp only [streamOf, List.filter_filter]
      refine List.filter_congr fun x _ => ?_
      simpa using hkeep x
    _ = streamOf a (segments t).flatten := by rw [flatten_segments]
    _ = ((segments t).map (streamOf a)).flatten := List.filter_flatten

/-- A trace is admitted when the stretches between its RESETs are, one by one (log entry 12). -/
theorem admitted_iff_forall₂ (slip : Bool) (phys t : List Timed) :
    admitted slip phys t = true ↔
      List.Forall₂ (fun g h => admittedRun slip g h = true) (segments phys) (segments t) := by
  simp [admitted, List.forall₂_iff_zip]

theorem admitted_of_no_reset (slip : Bool) {phys t : List Timed} (hp : ∀ x ∈ phys, x.event ≠ .reset)
    (ht : ∀ x ∈ t, x.event ≠ .reset) : admitted slip phys t = true ↔ admittedRun slip phys t = true := by
  simp [admitted_iff_forall₂, segments_of_no_reset hp, segments_of_no_reset ht]

/-- An admitted trace keeps the stream of each agent that performs no RESET (43_counter_sync.md R176, R178). -/
theorem streamOf_of_admitted {a : Agent} (ha : a ≠ .ENV) {slip : Bool} {phys t : List Timed}
    (h : admitted slip phys t = true) : streamOf a t = streamOf a phys := by
  have hruns : List.Forall₂ (fun g h => streamOf a g = streamOf a h) (segments phys) (segments t) :=
    ((admitted_iff_forall₂ slip phys t).1 h).imp fun _ _ hrun => (streamOf_of_admittedRun ha hrun).symm
  have hmap := List.forall₂_map_left_iff.2 (List.forall₂_map_right_iff.2 hruns)
  rw [List.forall₂_eq_eq_eq] at hmap
  rw [streamOf_eq_flatten ha, ← hmap, ← streamOf_eq_flatten ha]

/-- Settles O47: RESETs cut a trace into runs, and without them the trace is one run. -/
theorem slipAdmitsMore : Obligations.SlipAdmitsMore := by
  simp only [Obligations.SlipAdmitsMore, ← streamOf_DEC, ← streamOf_CTL]
  refine ⟨fun slip phys t h => ?_, fun slip phys t hp ht => ?_, fun phys t h => ?_, fun phys h => ?_⟩
  · exact ⟨streamOf_of_admitted (by decide) h, streamOf_of_admitted (by decide) h⟩
  · rw [admitted_of_no_reset slip hp ht, admittedRun_iff, sameStreams_iff hp ht, edgesBeforeDeadlines_iff, and_assoc]
  · rw [admitted_iff_forall₂] at h ⊢
    exact h.imp fun _ _ => admittedRun_true_of_false
  · rw [admitted_iff_forall₂, List.forall₂_same]
    exact fun g hg => admittedRun_self (h.sublist (sublist_of_mem_segments hg))

end Sys2Proof.Machine
end

section
/-!
PROOFS of the statements of 60_exceptions.md: the ways the marks are set, the cut that a RESET makes in a trace, and the
idle step.
-/

namespace Sys2Proof.Machine

/-! ### The ways the marks are set -/

/-- What answers a next state was unmarked (10_state.md R29). -/
theorem unmarked_of_exec {i : Instr} {s t : State} (h : exec i s = .next t) : s.faulted = none ∧ s.refused = none := by
  by_contra hmarked
  exact exec_ne_next_of_marked (not_and_or.1 hmarked) i t h

theorem unmarked_of_step {s t : State} (h : step s = .next t) : s.faulted = none ∧ s.refused = none := by
  by_contra hmarked
  exact step_ne_next_of_marked (not_and_or.1 hmarked) t h

/-- No event sets REFUSED (60_exceptions.md R201). -/
theorem refused_of_exec {i : Instr} {s t : State} (h : exec i s = .next t) : t.refused = s.refused := by
  rcases exec_next_cases h with ⟨n, rfl⟩ | rfl | rfl
  · obtain ⟨-, ⟨-, href⟩, -⟩ := decoderEvent_frame n s
    exact href
  · obtain ⟨-, -, href, -⟩ := tickEvent_frame s
    exact href
  · rfl

/-- A TICK faults for a NaN, or without one for a deadline that does not fit (42_controller.md R150, 41_sample_clock.md
R127). -/
theorem tickEvent_fault_cases {s : State} {f : Fault} (hs : s.faulted = none) (h : (tickEvent s).faulted = some f) :
    (f = .numericNaN ∧ ¬ NoNaN s) ∨ (f = .wakeOverflow ∧ NoNaN s ∧ ¬ WakeFits s) := by
  rcases tickEvent_cases s with ⟨hnan, he⟩ | ⟨hn, hlate, he⟩ | ⟨-, -, he⟩ <;> rw [he] at h
  · exact .inl ⟨(Option.some.inj h).symm, hnan⟩
  · exact .inr ⟨(Option.some.inj h).symm, hn, hlate⟩
  · cases hs.symm.trans h

/-- Of the events only TICK sets FAULTED (60_exceptions.md R201). -/
theorem eq_tick_of_exec_fault {i : Instr} {s t : State} {f : Fault} (h : exec i s = .next t)
    (hf : t.faulted = some f) : i = .tick ∧ t = tickEvent s := by
  obtain ⟨hs, -⟩ := unmarked_of_exec h
  have hdec : ∀ n, (decoderEvent n s).faulted ≠ some f := fun n hn => by
    obtain ⟨-, ⟨hkeep, -⟩, -⟩ := decoderEvent_frame n s
    cases (hkeep.trans hs).symm.trans hn
  cases i with
  | edge c l => obtain ⟨-, rfl⟩ := (exec_edge_next_iff c l s t).1 h; exact absurd hf (hdec _)
  | pair a b => obtain ⟨-, rfl⟩ := (exec_pair_next_iff a b s t).1 h; exact absurd hf (hdec _)
  | tick => exact ⟨rfl, ((exec_tick_next_iff s t).1 h).2.symm⟩
  | reset =>
    obtain ⟨-, -, -, rfl⟩ := (exec_reset_next_iff s t).1 h
    cases hs.symm.trans hf

/-- A word that decoding rejects is none of the ten (30_encoding.md R74, R75). -/
theorem not_wordWellFormed_of_decode_error {w : EventWord} {e : DecodeError} (h : decode w = .error e) :
    wordWellFormed w = false := by
  have hten : ∀ v ∈ definedWords, (decode v).isOk = true := by decide
  by_contra hw
  have hok := hten w (List.contains_iff_mem.1 (Bool.eq_true_of_not_eq_false hw))
  rw [h] at hok
  cases hok

/-- Settles O7: idling sets no mark, an event sets at most FAULTED and is then a TICK that faults, and a refusal sets
only REFUSED. -/
theorem marksAreSetOnlyAsListed : Obligations.MarksAreSetOnlyAsListed := by
  intro s t h
  obtain ⟨hf, hr⟩ := unmarked_of_step h
  refine ⟨hf, hr, ?_⟩
  rcases step_next_cases h with ⟨-, rfl⟩ | ⟨w, rest, i, htrace, hd, he⟩ | ⟨w, rest, htrace, hd, -, rfl⟩
  · simp [hf, hr]
  · refine ⟨fun f hset => ?_, fun r hset => ?_⟩
    · obtain ⟨rfl, rfl⟩ := eq_tick_of_exec_fault he hset
      exact ⟨⟨rest, eq_of_decode_tick hd ▸ htrace⟩, tickEvent_fault_cases (s := setTrace rest s) hf hset⟩
    · rw [refused_of_exec he] at hset
      cases hr.symm.trans hset
  · refine ⟨fun f hset => ?_, fun r hset => ?_⟩
    · cases hf.symm.trans hset
    · exact ⟨(Option.some.inj hset).symm, w, rest, htrace, not_wordWellFormed_of_decode_error hd⟩

/-! ### The cut that a RESET makes -/

theorem segments_ne_nil (t : List Timed) : segments t ≠ [] := by
  cases t with
  | nil => simp [segments]
  | cons x rest =>
    rw [segments]
    split
    · simp
    · split <;> simp

/-- What stands before the first RESET is the first stretch (60_exceptions.md R204). -/
theorem segments_append_reset {p : List Timed} (hp : ∀ x ∈ p, x.event ≠ .reset) {r : Timed} (hr : r.event = .reset)
    (t : List Timed) : segments (p ++ r :: t) = p :: segments t := by
  induction p with
  | nil => rw [List.nil_append, segments, if_pos hr]
  | cons x p ih =>
    obtain ⟨hx, hrest⟩ := List.forall_mem_cons.1 hp
    rw [List.cons_append, segments, if_neg hx, ih hrest]

/-- Settles O50: a RESET parts off the stretch before it, and a trace without one is a single stretch. -/
theorem resetsCutTheTrace : Obligations.ResetsCutTheTrace := by
  intro slip p q phys t r r' hp hq hr hr'
  refine ⟨?_, ?_, ?_⟩
  · rw [admitted_of_no_reset slip hp hq, admitted_iff_forall₂, admitted_iff_forall₂, segments_append_reset hp hr,
      segments_append_reset hq hr', List.forall₂_cons]
  · rw [← Bool.not_eq_true, admitted_iff_forall₂, segments_of_no_reset hp, segments_append_reset hq hr',
      List.forall₂_cons, List.forall₂_nil_left_iff]
    exact fun h => segments_ne_nil t h.2
  · rw [← Bool.not_eq_true, admitted_iff_forall₂, segments_append_reset hp hr, segments_of_no_reset hq,
      List.forall₂_cons, List.forall₂_nil_right_iff]
    exact fun h => segments_ne_nil phys h.2

/-! ### The idle step -/

theorem presented_of_nil {s : State} (h : s.trace = []) : presented s = .nothing := by
  simp [presented, decodeBytes, h]

/-- Settles O10: a running state is unmarked, so that its idle step is performed. -/
theorem idleHoldsState : Obligations.IdleHoldsState := by
  intro s hr htrace
  obtain ⟨hb, hf, href, -⟩ := hr
  rw [step, presented_of_nil htrace]
  exact unlessStopped_of_unmarked hb hf href

end Sys2Proof.Machine
end

section
/-!
PROOFS of the statements of 70_reset_and_hazards.md: what stops before the first RESET, and what RESET writes and
leaves.
-/

namespace Sys2Proof.Machine

/-! ### Before the first RESET -/

section BeforeReset

variable {s : State} (hb : buildValid s.build = true) (hf : s.faulted = none) (hr : s.refused = none)
  (hseen : s.resetSeen = false)
include hb hf hr hseen

/-- What needs a RESET before it has no step without one (70_reset_and_hazards.md R231). -/
theorem afterReset_of_unseen (k : Host.Outcome State Fault Refusal) : afterReset s k = .fault .beforeReset := by
  rw [afterReset, unlessStopped_of_unmarked hb hf hr, hseen]
  rfl

theorem exec_of_unseen {i : Instr} (hi : i ≠ .reset) : exec i s = .fault .beforeReset := by
  cases i with
  | edge c l => exact afterReset_of_unseen hb hf hr hseen _
  | pair a b => exact afterReset_of_unseen hb hf hr hseen _
  | tick => exact afterReset_of_unseen hb hf hr hseen _
  | reset => exact absurd rfl hi

/-- A word other than RESET's stands for another event or is reserved; neither has a step (70_reset_and_hazards.md
R231, R234). -/
theorem step_of_unseen {w : EventWord} {rest : List EventWord} (ht : s.trace = w :: rest) (hw : w ≠ encode .reset) :
    step s = .fault .beforeReset := by
  cases hd : decode w with
  | ok i =>
    have hi : i ≠ .reset := fun h => hw (h ▸ eq_encode_of_decode hd)
    rw [step, presented_of_decode ht hd]
    exact exec_of_unseen (s := setTrace rest s) hb hf hr hseen hi
  | error e =>
    obtain rfl := eq_reservedEvent_of_decode_error hd
    rw [step, presented_of_decode_error ht hd]
    exact afterReset_of_unseen (s := setTrace rest s) hb hf hr hseen _

end BeforeReset

theorem exec_reset_of_unmarked {s : State} (hb : buildValid s.build = true) (hf : s.faulted = none)
    (hr : s.refused = none) : exec .reset s = .next (resetEvent s) :=
  (exec_reset_next_iff s _).2 ⟨hb, hf, hr, rfl⟩

/-- Settles O9: every event but RESET, and a reserved word, pass the check that a RESET was seen. -/
theorem onlyResetRunsFirst : Obligations.OnlyResetRunsFirst := fun _ hb hf hr hseen =>
  ⟨fun _ hi => exec_of_unseen hb hf hr hseen hi, ⟨_, exec_reset_of_unmarked hb hf hr, markReset_resetSeen _⟩,
    fun _ _ ht hw => step_of_unseen hb hf hr hseen ht hw⟩

/-! ### What RESET writes and leaves -/

/-- Settles O12: the state given is `resetEvent` with its writes carried out. -/
theorem resetResult : Obligations.ResetResult :=
  ⟨fun _ hb hf hr => exec_reset_of_unmarked hb hf hr, fun f => ⟨numVal_zeroNum f, numFmtOf_zeroNum f⟩,
    fun _ t hmarked => exec_ne_next_of_marked hmarked .reset t⟩

/-- RESET overwrites all that is free before it (70_reset_and_hazards.md R230, R231). -/
theorem resetEvent_powerUp (b : Build) : resetEvent (State.powerUp b []) = State.resetOf b := rfl

/-- Settles O13: a machine at power-up is unmarked, so that its RESET is performed. -/
theorem resetLeavesTheResetState : Obligations.ResetLeavesTheResetState := fun b hb =>
  resetEvent_powerUp b ▸ exec_reset_of_unmarked (s := State.powerUp b []) hb rfl rfl

/-- Settles O27: whatever has a RESET is left by it as `resetEvent` leaves it. -/
theorem resetFrame : Obligations.ResetFrame := by
  intro s t h
  obtain ⟨-, -, -, rfl⟩ := (exec_reset_next_iff s t).1 h
  exact resetEvent_frame s

/-! ### The reset state -/

/-- The first deadline is T0, also where another parameter makes the build invalid (70_reset_and_hazards.md R230). -/
theorem deadline_resetOf {b : Build} (hns : b.t0Nsec < 10 ^ 9) :
    deadline (State.resetOf b) = b.t0Sec.toNat * 10 ^ 9 + b.t0Nsec :=
  congrArg (b.t0Sec.toNat * 10 ^ 9 + ·) (toNat_ofNat_nsec hns)

/-- Settles O14: of the OPEN parameters only T0 is read, by the deadline. -/
theorem defaultResetValues : Obligations.DefaultResetValues := fun cpr sec nsec e hns =>
  ⟨rfl, rfl, rfl, rfl, deadline_resetOf (b := Config.defaultBuildWith cpr sec nsec e) hns, numVal_zeroNum .binary32,
    numVal_zeroNum .binary32, rfl, rfl, rfl⟩

theorem running_resetOf {b : Build} (hb : buildValid b = true) : Running (State.resetOf b) := ⟨hb, rfl, rfl, rfl⟩

/-- Settles O15: the build of `Config.resetBuild` is valid. -/
theorem resetStateRuns : Obligations.ResetStateRuns := ⟨running_resetOf (by decide), rfl⟩

end Sys2Proof.Machine
end
